-- ==== Sys2Proof/Word.lean ====
section
/-! DEFINITION. The machine's words and bytes (spec 00_scope.md R5, R7, R8). -/

namespace Sys2Proof

/-- A 32-bit register value or cipher word; `+` and `-` wrap modulo 2^32 and `>>>` is the logical
shift, as R8 fixes them. -/
abbrev Word := BitVec 32

/-- One byte of data memory (R28). -/
abbrev Byte := BitVec 8

end Sys2Proof
end

