-- ==== Sys2Proof/Config.lean ====
section
/-! DEFINITION. What the platform fixes and what the spec leaves open.
The three opaque constants are the spec's `any` (00_scope.md R9): they have no body, so nothing can
prove what they are, and a claim about them holds for every value. -/

namespace Sys2Proof

/-- The `n`-th free word: what a busy read of V0, V1 or OUTLEN returns (R38) and what the hidden
registers hold outside a command (R25, R27). DESIGN CHOICE, safe: log entries 7 and 8. -/
opaque Config.freeWord : Nat → Word

/-- The `n`-th free byte: what a byte of an abandoned buffer command's output range holds after the
reset (R92). DESIGN CHOICE, safe: log entry 9. -/
opaque Config.freeByte : Nat → Byte

/-- What data-memory byte `a` holds while nothing has written it: whatever the platform placed there
(R27, 93_implementation_defined.md O3). DESIGN CHOICE, safe: log entry 1. -/
opaque Config.platformByte : Nat → Byte

/-- MEM_SIZE - 1 in the state the model calls reset (R6 leaves MEM_SIZE open). It is the size the
spec's own programs take (95_test_vectors.md). DESIGN CHOICE, unsafe for a claim about runs from
`State.reset`: log entry 2. -/
def Config.resetMemTop : Word := 0x00000FFF#32

/-- REG_BASE in the state the model calls reset (R6 leaves REG_BASE open). DESIGN CHOICE, unsafe for
a claim about runs from `State.reset`: log entry 3. -/
def Config.resetRegBase : Nat := 0

end Sys2Proof
end

