-- ==== Sys2Proof/Syntax.lean ====
section
/-! DEFINITION. The instruction set: the four commands of the opcode table (30_encoding.md R50).
A command word carries no operand (R49), so the constructors have no arguments. -/

namespace Sys2Proof

/-- One constructor per row of the opcode table (R50). -/
inductive Instr where
  /-- ENC_BLOCK (R59): encrypt the block in V0, V1. -/
  | encBlock
  /-- DEC_BLOCK (R60): decrypt the block in V0, V1. -/
  | decBlock
  /-- ENC_BUF (R66): encrypt LEN bytes at SRC into whole blocks at DST. -/
  | encBuf
  /-- DEC_BUF (R67): decrypt LEN bytes at SRC to DST. -/
  | decBuf
deriving DecidableEq, Repr

end Sys2Proof
end

