-- ==== Sys2Proof/Machine/State.lean ====
section
/-! DEFINITION. The machine's state as plain data, its reset, and the reasons a step can stop
(10_state.md, 60_exceptions.md R90, 70_reset_and_hazards.md R91). -/

namespace Sys2Proof.Machine

/-- Data memory (R28): the bytes that something has written, as (address, byte) pairs with the
addresses strictly rising. An address that is not listed has no written value; what the platform
placed there is `Config.platformByte` (log entry 1). -/
abbrev Memory := List Host.Cell

/-- The sixteen slots of the register window (R12). -/
inductive Slot where
  | cmd | status | keylen | reserved0C
  | k0 | k1 | k2 | k3
  | v0 | v1 | src | dst
  | len | outlen | reserved38 | reserved3C
deriving DecidableEq, Repr

/-- The error kinds a command can end with (R77). Codes 6 and 7 are reserved and have no kind. -/
inductive ErrorKind where
  | invalidKeyLength
  | misalignedBuffer
  | illegalCommand
  | accessFault
  | bufferOverlap
deriving DecidableEq, Repr

/-- The ranges of a buffer command in unbounded integers (R61): the input is
`src .. src + len - 1`, the output `dst .. dst + outLen - 1`. -/
structure Extent where
  src : Nat
  len : Nat
  dst : Nat
  outLen : Nat
deriving DecidableEq, Repr

/-- What may happen next, one atomic action each (R78). The host's actions are those of R52, asked
for at a host address with a width in bits (R35); reset is the platform's (R91). -/
inductive Turn where
  /-- The engine has the turn: it runs the accepted command, or nothing if there is none (R72). -/
  | engine
  /-- The host writes `value` to the register window (R36). -/
  | regWrite (width address : Nat) (value : Word)
  /-- The host reads the register window (R37). -/
  | regRead (width address : Nat)
  /-- The host writes bytes to data memory from `address` upward (R52 `MW`). -/
  | memWrite (address : Nat) (bytes : List Byte)
  /-- The host reads `count` bytes of data memory (R52 `MR`). -/
  | memRead (address count : Nat)
  /-- The platform resets the block (R91, R92). -/
  | reset
deriving DecidableEq, Repr

/-- What a host read gives back. -/
inductive Response where
  | word (value : Word)
  | bytes (values : List Byte)
deriving DecidableEq, Repr

/-- The whole machine. The first group is the register window (R12), the second the hidden registers
(R25), then data memory (R28). The rest is the model's: the two open parameters of R6, and the
outside world's side of the interface. -/
structure State where
  /-- STATUS (R14). -/
  status : Word
  /-- KEYLEN (R15). -/
  keylen : Word
  /-- K0 to K3 (R16). -/
  k0 : Word
  k1 : Word
  k2 : Word
  k3 : Word
  /-- V0 and V1 (R17). -/
  v0 : Word
  v1 : Word
  /-- SRC, DST and LEN (R18). -/
  src : Word
  dst : Word
  len : Word
  /-- OUTLEN (R19). -/
  outlen : Word
  /-- PEND, the command word latched at acceptance (R25). -/
  pend : Word
  /-- The running sum of a block operation (R25); unspecified outside a command. -/
  sum : Word
  /-- The round counter of a block operation (R25); unspecified outside a command. -/
  round : BitVec 6
  /-- The block index of a buffer command (R25); unspecified outside a command. -/
  blk : BitVec 30
  /-- The written bytes of data memory (R28). -/
  mem : Memory
  /-- MEM_SIZE - 1 (R6), fixed by the platform: no step changes it (log entry 2). -/
  memTop : Word
  /-- REG_BASE (R6), fixed by the platform: no step changes it (log entry 3). -/
  regBase : Nat
  /-- The coming actions, the next one first (log entry 5). -/
  turns : List Turn
  /-- What the host's reads gave back, the newest first (log entry 6). -/
  responses : List Response
  /-- How many free values have been taken (log entry 7). -/
  draws : Nat
  /-- The buffer commands accepted whose completion the host has not observed (R42, log entry 10). -/
  duty : List Extent
deriving DecidableEq, Repr

/-- Why the machine stops with a fault. R90: 'HostRace is the only model fault'. -/
inductive Fault where
  /-- R42, R90: the host wrote a byte of a running buffer command's input or output range, or read a
  byte of its output range. Raised by the host's turns `memWrite` and `memRead`, by no command.
  Safe: the spec gives the race no outcome, and the model gives it none. -/
  | hostRace
deriving DecidableEq, Repr

/-- Why a step is refused. No command is ever refused: all but the first constructor are about what
the outside world asks for. -/
inductive Refusal where
  /-- An instruction without a meaning yet. Raised by no arm of `exec` in this model. Safe. -/
  | notModelled (mnemonic : String)
  /-- R35: a host access to the window of a width other than 32 bits, or at an offset that is no
  multiple of 4. Raised by `regWrite` and `regRead`. Safe. -/
  | unsupportedAccess (width offset : Nat)
  /-- R39: a host address outside the register window, so not an access to this hardware. Raised by
  `regWrite` and `regRead`. Safe. -/
  | outsideWindow (address : Nat)
  /-- R28: a host access to data memory at an address that is not in `0 .. MEM_SIZE-1`. Raised by
  `memWrite` and `memRead`. Safe. -/
  | outsideDataMemory (address count : Nat)
  /-- 93_implementation_defined.md O11: the host read a STATUS whose ERR holds a reserved code, which
  nothing writes. Raised by `regRead`. Safe. -/
  | reservedErrorCode
deriving DecidableEq, Repr

/-- The machine right after reset (R27, R91), with nothing for the outside world to do. The values
the spec does not give are `sum`, `round`, `blk` (log entry 8), `memTop` (2), `regBase` (3) and the
model's own fields (5, 6, 7, 10). -/
def State.reset : State where
  status := 0x00000000#32
  keylen := 0x00000000#32
  k0 := 0x00000000#32
  k1 := 0x00000000#32
  k2 := 0x00000000#32
  k3 := 0x00000000#32
  v0 := 0x00000000#32
  v1 := 0x00000000#32
  src := 0x00000000#32
  dst := 0x00000000#32
  len := 0x00000000#32
  outlen := 0x00000000#32
  pend := 0x00000000#32
  sum := 0x00000000#32
  round := 0#6
  blk := 0#30
  mem := []
  memTop := Config.resetMemTop
  regBase := Config.resetRegBase
  turns := []
  responses := []
  draws := 0
  duty := []

end Sys2Proof.Machine
end

