-- ==== Sys2Proof/Machine/Flags.lean ====
section
/-! DEFINITION. The fields of STATUS and the only writes the spec makes to them (10_state.md R14,
60_exceptions.md R71, R74, R76, R77, 20_memory.md R38). The cipher sets no flag (R23). -/

namespace Sys2Proof.Machine

/-- STATUS.BUSY, bit 0 (R14). -/
def statusBusy (st : Word) : Bool := st.getLsbD 0

/-- STATUS.DONE, bit 1 (R14). -/
def statusDone (st : Word) : Bool := st.getLsbD 1

/-- STATUS.WIGN, bit 2 (R14). -/
def statusWign (st : Word) : Bool := st.getLsbD 2

/-- STATUS.ERR, bits 6:4 (R14). -/
def statusErr (st : Word) : BitVec 3 := st.extractLsb' 4 3

/-- The code of each error kind (R77). -/
def errorCode : ErrorKind → BitVec 3
  | .invalidKeyLength => 1#3
  | .misalignedBuffer => 2#3
  | .illegalCommand => 3#3
  | .accessFault => 4#3
  | .bufferOverlap => 5#3

/-- The code a command ends with: 0 is NONE (R77). -/
def endCode : Option ErrorKind → BitVec 3
  | none => 0#3
  | some e => errorCode e

/-- STATUS at acceptance: BUSY 1, everything else 0 (R71). -/
def statusAccepted : Word := 0x00000001#32

/-- STATUS at completion: BUSY <- 0, DONE <- 1, ERR <- code, and every other bit, WIGN among them,
keeps its value (R74, R76). -/
def statusCompleted (code : BitVec 3) (st : Word) : Word :=
  (st &&& ~~~0x00000073#32) ||| 0x00000002#32 ||| (code.setWidth 32 <<< 4)

/-- STATUS after a write that was ignored: WIGN <- 1 (R38). -/
def statusWriteIgnored (st : Word) : Word := st ||| 0x00000004#32

/-- The engine is enabled exactly when STATUS.BUSY = 1 (R72). -/
def State.busy (s : State) : Bool := statusBusy s.status

/-- A command has completed and none has been accepted since (R14). -/
def State.done (s : State) : Bool := statusDone s.status

end Sys2Proof.Machine
end

