-- ==== Sys2Proof/WellFormed.lean ====
section
/-! DEFINITION. Which terms of the syntax and which command words are well formed (30_encoding.md
R47 to R51). -/

namespace Sys2Proof

/-- Every command is well formed: it has no field that could hold an illegal value (R49). -/
def Instr.wf : Instr → Bool
  | .encBlock => true
  | .decBlock => true
  | .encBuf => true
  | .decBuf => true

/-- R47: 'A command word is legal exactly when c[31:3] = 0 and c[2] = 1'. Written on the number the
word stands for, apart from the decoder's bit fields. -/
def legalCommandWord (c : Word) : Bool :=
  c.toNat / 8 == 0 && c.toNat / 4 % 2 == 1

end Sys2Proof
end

