-- ==== Sys2Proof/Decode.lean ====
section
/-! DEFINITION. The decoder of command words, total and rejecting by name, and the encoder
(30_encoding.md R47 to R51). The decoder reads the bit fields of R47; the encoder is the table of
R50. -/

namespace Sys2Proof

/-- Why a word is no command (R47, R51). Either way the engine ends it with IllegalCommand (R73). -/
inductive DecodeReject where
  /-- Some bit of RSVD (31:3) is set. -/
  | reservedBits
  /-- START (bit 2) is 0. -/
  | startClear
deriving DecidableEq, Repr

/-- RSVD, bits 31:3 (R47). -/
def commandRsvd (c : Word) : BitVec 29 := c.extractLsb' 3 29

/-- START, bit 2 (R47). -/
def commandStart (c : Word) : Bool := c.getLsbD 2

/-- MODE, bit 1: buffer when set (R47). -/
def commandMode (c : Word) : Bool := c.getLsbD 1

/-- DIR, bit 0: decrypt when set (R47). -/
def commandDir (c : Word) : Bool := c.getLsbD 0

/-- The command a MODE and a DIR bit name (R47, R50). -/
def commandOf (mode dir : Bool) : Instr :=
  match mode, dir with
  | false, false => .encBlock
  | false, true => .decBlock
  | true, false => .encBuf
  | true, true => .decBuf

/-- Decode a command word: every one of the 2^32 words is a command or is rejected by name (R47,
R51). The order of the two tests is that of R73. -/
def decode (c : Word) : Except DecodeReject Instr :=
  if commandRsvd c ≠ 0#29 then .error .reservedBits
  else if commandStart c = false then .error .startClear
  else .ok (commandOf (commandMode c) (commandDir c))

/-- The command word of an instruction, from the table of R50. -/
def encode : Instr → Word
  | .encBlock => 0x00000004#32
  | .decBlock => 0x00000005#32
  | .encBuf => 0x00000006#32
  | .decBuf => 0x00000007#32

/-- The command the decoder reads from a table word of `nbits` bits. A command word is one 32-bit
word (R48), written whole to CMD, so there is no byte order and no further word: a `w` shorter than
32 bits has zeros above, and one that needs more than 32 bits is no command word. -/
def decodeTableWord (nbits w : Nat) : Option Instr :=
  let c := w % 2 ^ nbits
  if c < 2 ^ 32 then (decode (BitVec.ofNat 32 c)).toOption else none

end Sys2Proof
end

