-- ==== Sys2Proof/Machine/Operands.lean ====
section
/-! DEFINITION. The operands of the commands: fixed registers (30_encoding.md R49), the byte order of
a block (20_memory.md R31) and the ranges of a buffer command (41_buffer_codec.md R61, R62). -/

namespace Sys2Proof.Machine

/-- The key (k0, k1, k2, k3) (R16, R49). -/
structure Key where
  k0 : Word
  k1 : Word
  k2 : Word
  k3 : Word
deriving DecidableEq, Repr

/-- One 8-byte block as its two words (v0, v1) (R31). -/
structure Block where
  v0 : Word
  v1 : Word
deriving DecidableEq, Repr

/-- The key a command takes: K0 to K3 (R49). -/
def State.key (s : State) : Key := ⟨s.k0, s.k1, s.k2, s.k3⟩

/-- The block a block command takes: V0, V1 (R49). -/
def State.block (s : State) : Block := ⟨s.v0, s.v1⟩

/-- MODE of a command: does it work on buffers (R47)? -/
def commandIsBuffer : Instr → Bool
  | .encBlock => false
  | .decBlock => false
  | .encBuf => true
  | .decBuf => true

/-- DIR of a command: does it decrypt (R47)? -/
def commandIsDecrypt : Instr → Bool
  | .encBlock => false
  | .decBlock => true
  | .encBuf => false
  | .decBuf => true

/-- LE32 (R9, R31): the first byte is the least significant. -/
def le32 (b0 b1 b2 b3 : Byte) : Word := b3 ++ b2 ++ b1 ++ b0

/-- Byte `k` of BYTES(w) (R9, R31), `k` from 0 to 3. -/
def wordByte (w : Word) (k : Nat) : Byte := w.extractLsb' (8 * k) 8

/-- The block whose bytes at ascending offsets are `b 0 .. b 7`: v0 at the lower four (R31). -/
def blockOfBytes (b : Nat → Byte) : Block :=
  ⟨le32 (b 0) (b 1) (b 2) (b 3), le32 (b 4) (b 5) (b 6) (b 7)⟩

/-- Byte `j` of a block, `j` from 0 to 7: BYTES(v0) then BYTES(v1) (R31, R64). -/
def blockByte (b : Block) (j : Nat) : Byte :=
  if j < 4 then wordByte b.v0 j else wordByte b.v1 (j - 4)

/-- The eight bytes of a block in ascending address order (R64). -/
def blockBytes (b : Block) : List Byte :=
  [blockByte b 0, blockByte b 1, blockByte b 2, blockByte b 3,
   blockByte b 4, blockByte b 5, blockByte b 6, blockByte b 7]

/-- How many blocks a buffer command processes: `ceil(len / 8)` to encrypt, `len / 8` to decrypt
(R62). -/
def blockCount (i : Instr) (len : Nat) : Nat :=
  if commandIsDecrypt i then len / 8 else (len + 7) / 8

/-- The output length: rounded up to whole blocks to encrypt, the input's own to decrypt (R61). -/
def outLength (i : Instr) (len : Nat) : Nat :=
  if commandIsDecrypt i then len else 8 * ((len + 7) / 8)

/-- The input and output ranges of a buffer command, in unbounded integers (R61). -/
def bufferExtent (i : Instr) (s : State) : Extent where
  src := s.src.toNat
  len := s.len.toNat
  dst := s.dst.toNat
  outLen := outLength i s.len.toNat

/-- Is `a` in the input range (R61)? -/
def Extent.inInput (e : Extent) (a : Nat) : Bool := decide (e.src ≤ a ∧ a < e.src + e.len)

/-- Is `a` in the output range (R61)? -/
def Extent.inOutput (e : Extent) (a : Nat) : Bool := decide (e.dst ≤ a ∧ a < e.dst + e.outLen)

end Sys2Proof.Machine
end

