-- ==== Sys2Proof/Machine/Ops.lean ====
section
/-! DEFINITION. The operations every command is built from: data memory (20_memory.md R28 to R30),
free values (00_scope.md R9), and the life of a command: acceptance (60_exceptions.md R71),
completion (R74) and completion with an error (R75, R76), which is all this hardware has in the
place of an exception (R79, R80). -/

namespace Sys2Proof.Machine

/-! ### Data memory -/

/-- The byte written last at `a`, if any was. -/
def Memory.written? : Memory → Nat → Option Byte
  | [], _ => none
  | (k, x) :: m, a => if a = k then some x else Memory.written? m a

/-- MemRead(a, 1) (R29): the byte written last, and where nothing has been written the byte the
platform placed there (R27, log entry 1). -/
def Memory.read (m : Memory) (a : Nat) : Byte :=
  (Memory.written? m a).getD (Config.platformByte a)

/-- MemWrite(a, 1, b) (R30): the list stays in rising order. -/
def Memory.write : Memory → Nat → Byte → Memory
  | [], a, b => [(a, b)]
  | (k, x) :: m, a, b =>
    if a < k then (a, b) :: (k, x) :: m
    else if a = k then (a, b) :: m
    else (k, x) :: Memory.write m a b

/-- Bytes written from `a` upward, one at a time in ascending order (R34). -/
def Memory.writeBytes : Memory → Nat → List Byte → Memory
  | m, _, [] => m
  | m, a, b :: bs => Memory.writeBytes (Memory.write m a b) (a + 1) bs

/-- The `n` bytes from `a` upward. -/
def Memory.readBytes (m : Memory) (a : Nat) : Nat → List Byte
  | 0 => []
  | n + 1 => Memory.read m a :: Memory.readBytes m (a + 1) n

/-- Free bytes at the `n` addresses from `a` upward, the draws numbered from `d` (R92, log entry
9). -/
def Memory.drawBytes : Memory → Nat → Nat → Nat → Memory
  | m, _, 0, _ => m
  | m, a, n + 1, d => Memory.drawBytes (Memory.write m a (Config.freeByte d)) (a + 1) n (d + 1)

/-- The canonical form: addresses strictly rising. An address is listed exactly when something has
written it, so equal memories are equal lists. -/
def Memory.wf : Memory → Bool
  | [] => true
  | [_] => true
  | (k, _) :: (k', x') :: m => decide (k < k') && Memory.wf ((k', x') :: m)

/-- MEM_SIZE (R6): `1 <= MEM_SIZE <= 2^32`. -/
def State.memSize (s : State) : Nat := s.memTop.toNat + 1

/-- Do the `n` bytes from `a` upward exist (R28)? -/
def State.inDataMemory (s : State) (a n : Nat) : Bool := decide (a + n ≤ s.memSize)

/-! ### Free values -/

/-- The value of a read the spec leaves open (R37 `any`). -/
def State.drawWord (s : State) : Word := Config.freeWord s.draws

/-- The hidden registers after a command: unspecified, so three free values (R25, R27, log entry
8). -/
def State.releaseHidden (s : State) : State :=
  { s with
    sum := Config.freeWord s.draws
    round := (Config.freeWord (s.draws + 1)).setWidth 6
    blk := (Config.freeWord (s.draws + 2)).setWidth 30
    draws := s.draws + 3 }

/-! ### The life of a command -/

/-- The host's duty after the acceptance of the word `c`: a buffer command adds its ranges (R42, log
entry 10). -/
def State.dutyAfter (s : State) (c : Word) : List Extent :=
  match decode c with
  | .ok i => if commandIsBuffer i then bufferExtent i s :: s.duty else s.duty
  | .error _ => s.duty

/-- Accept(v) (R71): every value is accepted, legal or not. -/
def State.accept (v : Word) (s : State) : State :=
  { s with
    pend := v
    status := statusAccepted
    duty := s.dutyAfter v }

/-- The STATUS write that ends a command, with or without an error (R74, R76). -/
def State.endCommand (e : Option ErrorKind) (s : State) : State :=
  { s with status := statusCompleted (endCode e) s.status }

/-- `complete` (R74). -/
def State.complete (s : State) : State := s.endCommand none

/-- `raise E` (R75, R76): STATUS is written and nothing else. -/
def State.raise (e : ErrorKind) (s : State) : State := s.endCommand (some e)

/-! ### Results -/

/-- V0 and V1 take a block (R59, R60). -/
def State.setBlock (b : Block) (s : State) : State := { s with v0 := b.v0, v1 := b.v1 }

/-- A buffer command's results: the data memory and OUTLEN (R66, R67). -/
def State.setBuffer (m : Memory) (outLen : Nat) (s : State) : State :=
  { s with mem := m, outlen := BitVec.ofNat 32 outLen }

end Sys2Proof.Machine
end

