-- ==== Sys2Proof/Machine/Validation.lean ====
section
/-! DEFINITION. Validation before any effect, and the running of a validated command
(60_exceptions.md R72, R73, R78). -/

namespace Sys2Proof.Machine

/-- Does a range leave the data memory, or the output length not fit in 32 bits (R73 AccessFault)?
The test applies to zero-length buffers too (D28). -/
def Extent.faults (e : Extent) (memSize : Nat) : Bool :=
  decide (2 ^ 32 ≤ e.outLen ∨ memSize < e.src + e.len ∨ memSize < e.dst + e.outLen)

/-- Do the two ranges overlap without being in place (R73 BufferOverlap)? -/
def Extent.overlaps (e : Extent) : Bool :=
  decide (0 < e.len ∧ e.src ≠ e.dst ∧ e.src < e.dst + e.outLen ∧ e.dst < e.src + e.len)

/-- The checks of R73 that follow the key check, for buffer commands. -/
def validateBuffer (i : Instr) (s : State) : Option ErrorKind :=
  if commandIsDecrypt i = true ∧ s.len.toNat % 8 ≠ 0 then some .misalignedBuffer
  else if (bufferExtent i s).faults s.memSize then some .accessFault
  else if (bufferExtent i s).overlaps then some .bufferOverlap
  else none

/-- The checks of R73 on a legal command word, in the spec's order. -/
def validateInstr (i : Instr) (s : State) : Option ErrorKind :=
  if s.keylen ≠ 4#32 then some .invalidKeyLength
  else if commandIsBuffer i then validateBuffer i s
  else none

/-- Validate(c) (R73): an illegal word fails the first check. -/
def validate (c : Word) (s : State) : Option ErrorKind :=
  match decode c with
  | .error _ => some .illegalCommand
  | .ok i => validateInstr i s

/-- A command's engine step (R72): validation, then the error, or the effect and completion, after
which the hidden registers are unspecified (R25). -/
def runCommand (i : Instr) (effect : State → State) (s : State) :
    Host.Outcome State Fault Refusal :=
  match validateInstr i s with
  | some e => .next (s.raise e)
  | none => .next (effect s).releaseHidden.complete

end Sys2Proof.Machine
end

