-- ==== Sys2Proof/Machine/BlockTransform.lean ====
section
/-! DEFINITION. The Block Transform and the two block commands (40_block_transform.md). -/

namespace Sys2Proof.Machine

/-- The round constant DELTA (R5). -/
def delta : Word := 0x9E3779B9#32

/-- The sum decryption starts from, SUM_INIT_DEC (R5). -/
def decryptSum : Word := 0xC6EF3720#32

/-- How many rounds a block takes (R5); a round is one iteration, both halves (C1). -/
def rounds : Nat := 32

/-- The mixing function F of one half-round (R54); the right shift is logical (R53). -/
def mix (x s ka kb : Word) : Word := ((x <<< 4) + ka) ^^^ (x + s) ^^^ ((x >>> 5) + kb)

/-- A block operation in progress: the halves and the hidden registers sum and round (R25). -/
structure Work where
  v0 : Word
  v1 : Word
  sum : Word
  round : BitVec 6
deriving DecidableEq, Repr

/-- One encrypt round (R55): the v1 update uses the v0 just written. -/
def encryptRound (k : Key) (w : Work) : Work :=
  let sum := w.sum + delta
  let v0 := w.v0 + mix w.v1 sum k.k0 k.k1
  let v1 := w.v1 + mix v0 sum k.k2 k.k3
  ⟨v0, v1, sum, w.round + 1#6⟩

/-- One decrypt round (R56): v1 first, from the current v0; then v0 from the v1 just written; then
the sum steps down. -/
def decryptRound (k : Key) (w : Work) : Work :=
  let v1 := w.v1 - mix w.v0 w.sum k.k2 k.k3
  let v0 := w.v0 - mix v1 w.sum k.k0 k.k1
  ⟨v0, v1, w.sum - delta, w.round + 1#6⟩

/-- `n` rounds. -/
def repeatRound (f : Work → Work) : Nat → Work → Work
  | 0, w => w
  | n + 1, w => repeatRound f n (f w)

/-- Where encryption of a block starts: sum and round afresh (R25, R55). -/
def encryptStart (b : Block) : Work := ⟨b.v0, b.v1, 0#32, 0#6⟩

/-- Where decryption of a block starts (R56). -/
def decryptStart (b : Block) : Work := ⟨b.v0, b.v1, decryptSum, 0#6⟩

/-- The block an operation in progress holds. -/
def Work.block (w : Work) : Block := ⟨w.v0, w.v1⟩

/-- EncryptBlock (R55). -/
def encryptBlock (k : Key) (b : Block) : Block :=
  (repeatRound (encryptRound k) rounds (encryptStart b)).block

/-- DecryptBlock (R56). -/
def decryptBlock (k : Key) (b : Block) : Block :=
  (repeatRound (decryptRound k) rounds (decryptStart b)).block

/-- ENC_BLOCK (R59). -/
def execEncBlock (s : State) : Host.Outcome State Fault Refusal :=
  runCommand .encBlock (fun s => s.setBlock (encryptBlock s.key s.block)) s

/-- DEC_BLOCK (R60). -/
def execDecBlock (s : State) : Host.Outcome State Fault Refusal :=
  runCommand .decBlock (fun s => s.setBlock (decryptBlock s.key s.block)) s

end Sys2Proof.Machine
end

