-- ==== Sys2Proof/Machine/BufferCodec.lean ====
section
/-! DEFINITION. The Buffer Codec and the two buffer commands (41_buffer_codec.md). -/

namespace Sys2Proof.Machine

/-- Byte `k` of the input buffer: read from memory below LEN, zero without a memory access at or
beyond it (R63). -/
def inputByte (m : Memory) (e : Extent) (k : Nat) : Byte :=
  if k < e.len then Memory.read m (e.src + k) else 0x00#8

/-- ReadBlock(i) (R63). -/
def readBlock (m : Memory) (e : Extent) (i : Nat) : Block :=
  blockOfBytes (fun j => inputByte m e (8 * i + j))

/-- WriteBlock(i, b) (R64): all eight bytes, in ascending order. -/
def writeBlock (m : Memory) (e : Extent) (i : Nat) (b : Block) : Memory :=
  Memory.writeBytes m (e.dst + 8 * i) (blockBytes b)

/-- One block of a buffer command: read, transform, write (R65). -/
def codecBlock (f : Block → Block) (e : Extent) (i : Nat) (m : Memory) : Memory :=
  writeBlock m e i (f (readBlock m e i))

/-- `n` blocks from block `i` on, in ascending order (R65). -/
def codecLoop (f : Block → Block) (e : Extent) : Nat → Nat → Memory → Memory
  | 0, _, m => m
  | n + 1, i, m => codecLoop f e n (i + 1) (codecBlock f e i m)

/-- The effect of a buffer command on memory and OUTLEN (R66, R67). -/
def codecEffect (i : Instr) (f : Key → Block → Block) (s : State) : State :=
  s.setBuffer
    (codecLoop (f s.key) (bufferExtent i s) (blockCount i s.len.toNat) 0 s.mem)
    (outLength i s.len.toNat)

/-- ENC_BUF (R66). -/
def execEncBuf (s : State) : Host.Outcome State Fault Refusal :=
  runCommand .encBuf (codecEffect .encBuf encryptBlock) s

/-- DEC_BUF (R67). -/
def execDecBuf (s : State) : Host.Outcome State Fault Refusal :=
  runCommand .decBuf (codecEffect .decBuf decryptBlock) s

end Sys2Proof.Machine
end

