-- ==== Sys2Proof/Machine/Dispatch.lean ====
section
/-! DEFINITION. What each command does: one arm per constructor of Instr, each one call of that
command's meaning (60_exceptions.md R72). -/

namespace Sys2Proof.Machine

def exec (i : Instr) (s : State) : Host.Outcome State Fault Refusal :=
  match i with
  | .encBlock => Sys2Proof.Machine.execEncBlock s
  | .decBlock => Sys2Proof.Machine.execDecBlock s
  | .encBuf => Sys2Proof.Machine.execEncBuf s
  | .decBuf => Sys2Proof.Machine.execDecBuf s

end Sys2Proof.Machine
end

