-- ==== Sys2Proof/Machine/Window.lean ====
section
/-! DEFINITION. The host's access to the register window (10_state.md R12, 20_memory.md R35 to
R39). -/

namespace Sys2Proof.Machine

/-- The byte offset of a slot (R12). -/
def Slot.offset : Slot → Nat
  | .cmd => 0x00
  | .status => 0x04
  | .keylen => 0x08
  | .reserved0C => 0x0C
  | .k0 => 0x10
  | .k1 => 0x14
  | .k2 => 0x18
  | .k3 => 0x1C
  | .v0 => 0x20
  | .v1 => 0x24
  | .src => 0x28
  | .dst => 0x2C
  | .len => 0x30
  | .outlen => 0x34
  | .reserved38 => 0x38
  | .reserved3C => 0x3C

/-- The slot at a byte offset: there is one at every multiple of 4 in `0x00 .. 0x3C` and nowhere
else (R12, R35). -/
def Slot.ofOffset : Nat → Option Slot
  | 0x00 => some .cmd
  | 0x04 => some .status
  | 0x08 => some .keylen
  | 0x0C => some .reserved0C
  | 0x10 => some .k0
  | 0x14 => some .k1
  | 0x18 => some .k2
  | 0x1C => some .k3
  | 0x20 => some .v0
  | 0x24 => some .v1
  | 0x28 => some .src
  | 0x2C => some .dst
  | 0x30 => some .len
  | 0x34 => some .outlen
  | 0x38 => some .reserved38
  | 0x3C => some .reserved3C
  | _ => none

/-- The host address of a slot (R12). -/
def State.slotAddress (s : State) (slot : Slot) : Nat := s.regBase + slot.offset

/-- Which slot a host access reaches, or why it reaches none: only 32-bit accesses at offsets that
are multiples of 4 in the 64-byte window are admitted (R35, log entry 12). -/
def State.reachedSlot (s : State) (width address : Nat) : Except Refusal Slot :=
  if address < s.regBase ∨ s.regBase + 64 ≤ address then .error (.outsideWindow address)
  else if width ≠ 32 then .error (.unsupportedAccess width (address - s.regBase))
  else match Slot.ofOffset (address - s.regBase) with
    | some slot => .ok slot
    | none => .error (.unsupportedAccess width (address - s.regBase))

/-- A write that reaches its slot, the engine being idle (R36): CMD accepts a command, the operand
registers take the value, and STATUS, OUTLEN and the reserved slots are not affected. -/
def State.writeSlot (slot : Slot) (v : Word) (s : State) : State :=
  match slot with
  | .cmd => s.accept v
  | .status => s
  | .keylen => { s with keylen := v }
  | .reserved0C => s
  | .k0 => { s with k0 := v }
  | .k1 => { s with k1 := v }
  | .k2 => { s with k2 := v }
  | .k3 => { s with k3 := v }
  | .v0 => { s with v0 := v }
  | .v1 => { s with v1 := v }
  | .src => { s with src := v }
  | .dst => { s with dst := v }
  | .len => { s with len := v }
  | .outlen => s
  | .reserved38 => s
  | .reserved3C => s

/-- HostWrite(o, v) (R36): while a command is in progress the write is ignored and recorded in WIGN
(R38). -/
def State.hostWrite (slot : Slot) (v : Word) (s : State) : State :=
  if s.busy then { s with status := statusWriteIgnored s.status } else s.writeSlot slot v

/-- The value a slot reads as while nothing leaves it open (R37). -/
def State.slotValue (s : State) : Slot → Word
  | .cmd => 0x00000000#32
  | .status => s.status
  | .keylen => s.keylen
  | .reserved0C => 0x00000000#32
  | .k0 => s.k0
  | .k1 => s.k1
  | .k2 => s.k2
  | .k3 => s.k3
  | .v0 => s.v0
  | .v1 => s.v1
  | .src => s.src
  | .dst => s.dst
  | .len => s.len
  | .outlen => s.outlen
  | .reserved38 => 0x00000000#32
  | .reserved3C => 0x00000000#32

/-- The slots the engine may use as working registers while a command is in progress (R38). -/
def Slot.isWorking : Slot → Bool
  | .v0 => true
  | .v1 => true
  | .outlen => true
  | _ => false

/-- Does the read of a slot let the host observe completion (R41 item 5): STATUS with BUSY = 0 and
DONE = 1? -/
def State.observesCompletion (s : State) (slot : Slot) : Bool :=
  decide (slot = .status) && !s.busy && s.done

/-- HostRead(o) (R37): the value goes to the host; no register changes. While a command is in
progress a read of V0, V1 or OUTLEN gives a free value (R38, log entry 7). A read that observes
completion ends the host's duty (R42, log entry 10). -/
def State.hostRead (slot : Slot) (s : State) : State :=
  if s.busy && slot.isWorking then
    { s with
      responses := .word s.drawWord :: s.responses
      draws := s.draws + 1 }
  else
    { s with
      responses := .word (s.slotValue slot) :: s.responses
      duty := if s.observesCompletion slot then [] else s.duty }

/-- The host's turn `regWrite` (R35, R36). -/
def hostRegWrite (width address : Nat) (v : Word) (s : State) :
    Host.Outcome State Fault Refusal :=
  match s.reachedSlot width address with
  | .error r => .refused r
  | .ok slot => .next (s.hostWrite slot v)

/-- The host's turn `regRead` (R35, R37). A STATUS that holds a reserved error code is refused
(93_implementation_defined.md O11, log entry 13). -/
def hostRegRead (width address : Nat) (s : State) : Host.Outcome State Fault Refusal :=
  match s.reachedSlot width address with
  | .error r => .refused r
  | .ok slot =>
    if slot = .status ∧ 6 ≤ (statusErr s.status).toNat then .refused .reservedErrorCode
    else .next (s.hostRead slot)

end Sys2Proof.Machine
end

