-- ==== Sys2Proof/Machine/Outside.lean ====
section
/-! DEFINITION. What the outside world does to the block besides register accesses: the host's
accesses to data memory with its duty (20_memory.md R42, 60_exceptions.md R90), and reset
(70_reset_and_hazards.md R91, R92). -/

namespace Sys2Proof.Machine

/-- Does a write of byte `a` break the host's duty: is `a` in an input or output range it must keep
off (R42)? -/
def State.writeRaces (s : State) (a : Nat) : Bool :=
  s.duty.any (fun e => e.inInput a || e.inOutput a)

/-- Does a read of byte `a` break the host's duty: is `a` in an output range (R42)? The input range
may be read (R94). -/
def State.readRaces (s : State) (a : Nat) : Bool :=
  s.duty.any (fun e => e.inOutput a)

/-- Does `p` hold of one of the `n` addresses from `a` upward? -/
def anyAddress (p : Nat → Bool) (a : Nat) : Nat → Bool
  | 0 => false
  | n + 1 => p a || anyAddress p (a + 1) n

/-- The host writes bytes to data memory (R52 `MW`, R42, log entries 11 and 14). -/
def hostMemWrite (a : Nat) (bs : List Byte) (s : State) : Host.Outcome State Fault Refusal :=
  if s.inDataMemory a bs.length = false then .refused (.outsideDataMemory a bs.length)
  else if anyAddress s.writeRaces a bs.length then .fault .hostRace
  else .next { s with mem := Memory.writeBytes s.mem a bs }

/-- The host reads bytes of data memory (R52 `MR`, R42, log entry 11). -/
def hostMemRead (a n : Nat) (s : State) : Host.Outcome State Fault Refusal :=
  if s.inDataMemory a n = false then .refused (.outsideDataMemory a n)
  else if anyAddress s.readRaces a n then .fault .hostRace
  else .next { s with responses := .bytes (Memory.readBytes s.mem a n) :: s.responses }

/-- The ranges a reset abandons: those of the buffer command in progress, if it would have passed
validation (R92). While BUSY the operand registers hold their values at acceptance (R38). -/
def State.abandoned (s : State) : Option Extent :=
  if s.busy then
    match decode s.pend with
    | .ok i =>
      if commandIsBuffer i ∧ validateInstr i s = none then some (bufferExtent i s) else none
    | .error _ => none
  else none

/-- Data memory across a reset: kept (R27), but for the output range of an abandoned buffer command,
each byte of which holds a free value (R92, log entry 9). -/
def State.dropCommand (s : State) : State :=
  match s.abandoned with
  | some e =>
    { s with
      mem := Memory.drawBytes s.mem e.dst e.outLen s.draws
      draws := s.draws + e.outLen }
  | none => s

/-- Every register at its reset value (R27, R91). The engine is idle, so the host has no duty left
(log entry 10). -/
def State.clearRegisters (s : State) : State :=
  { s with
    status := 0x00000000#32
    keylen := 0x00000000#32
    k0 := 0x00000000#32
    k1 := 0x00000000#32
    k2 := 0x00000000#32
    k3 := 0x00000000#32
    v0 := 0x00000000#32
    v1 := 0x00000000#32
    src := 0x00000000#32
    dst := 0x00000000#32
    len := 0x00000000#32
    outlen := 0x00000000#32
    pend := 0x00000000#32
    duty := [] }

/-- The platform resets the block (R91, R92). The hidden registers are unspecified afterwards (R27,
log entry 8). -/
def State.resetBlock (s : State) : State := s.dropCommand.clearRegisters.releaseHidden

end Sys2Proof.Machine
end

