-- ==== Sys2Proof/Machine/Engine.lean ====
section
/-! DEFINITION. The engine's step and the order of the agents' actions (60_exceptions.md R72, R78,
R89). -/

namespace Sys2Proof.Machine

/-- EngineStep (R72), taken only when BUSY = 1: an illegal word ends with IllegalCommand (R73, R51),
a legal one is the command it names. -/
def engineStep (s : State) : Host.Outcome State Fault Refusal :=
  match decode s.pend with
  | .error _ => .next (s.raise .illegalCommand)
  | .ok i => exec i s

/-- The engine's turn: with no command in progress it is idle and keeps everything (R72, R89). -/
def engineTurn (s : State) : Host.Outcome State Fault Refusal :=
  if s.busy then engineStep s else .next s

/-- One atomic action (R78). -/
def takeTurn (t : Turn) (s : State) : Host.Outcome State Fault Refusal :=
  match t with
  | .engine => engineTurn s
  | .regWrite width address v => hostRegWrite width address v s
  | .regRead width address => hostRegRead width address s
  | .memWrite address bs => hostMemWrite address bs s
  | .memRead address n => hostMemRead address n s
  | .reset => .next s.resetBlock

/-- The next action: the first of `turns`, and the engine's once there is none left, so that an
enabled engine step is eventually taken (R96, log entries 5 and 15). -/
def nextAction (s : State) : Host.Outcome State Fault Refusal :=
  match s.turns with
  | [] => engineTurn s
  | t :: rest => takeTurn t { s with turns := rest }

/-- The state in which the command word `c` has been accepted and the engine moves next (R71, log
entry 4). -/
def State.acceptNow (c : Word) (s : State) : State :=
  { s.accept c with turns := match s.turns with | [] => [] | t :: rest => .engine :: t :: rest }

end Sys2Proof.Machine
end

