-- ==== Sys2Proof/Machine/HostProgram.lean ====
section
/-! DEFINITION. The notation of host programs and its pseudo-instructions as lists of turns
(30_encoding.md R52, 70_reset_and_hazards.md R93). -/

namespace Sys2Proof.Machine

/-- `W <reg>, v` (R52), for a window at `base`. -/
def hostW (base : Nat) (slot : Slot) (v : Word) : Turn := .regWrite 32 (base + slot.offset) v

/-- `R <reg>` (R52). -/
def hostR (base : Nat) (slot : Slot) : Turn := .regRead 32 (base + slot.offset)

/-- `POLL` (R52): `busyReads` reads of STATUS that return BUSY = 1, the engine's step, and the read
that returns BUSY = 0. -/
def hostPoll (base busyReads : Nat) : List Turn :=
  List.replicate busyReads (hostR base .status) ++ [.engine, hostR base .status]

/-- `SETKEY k0, k1, k2, k3` (R52). -/
def hostSetKey (base : Nat) (k : Key) : List Turn :=
  [hostW base .keylen 4#32, hostW base .k0 k.k0, hostW base .k1 k.k1, hostW base .k2 k.k2,
   hostW base .k3 k.k3]

/-- `SETBUF src, dst, len` (R52). -/
def hostSetBuf (base : Nat) (src dst len : Word) : List Turn :=
  [hostW base .src src, hostW base .dst dst, hostW base .len len]

/-- `RUN <mnemonic>` (R52). -/
def hostRun (base : Nat) (i : Instr) (busyReads : Nat) : List Turn :=
  hostW base .cmd (encode i) :: hostPoll base busyReads

end Sys2Proof.Machine
end

