-- ==== Sys2Proof/Machine/Step.lean ====
section
/-! DEFINITION. One step of the machine, and how a table word comes to be the command the next step
runs. -/

namespace Sys2Proof.Machine

/-- One step: the next action of the agents (60_exceptions.md R72, R78). -/
def step (s : State) : Host.Outcome State Fault Refusal := nextAction s

/-- `s` with the table word accepted as a command (R71) and the engine next to move. There is no
program counter and no fetch (R22): the engine takes its command from PEND. A command word has 32
bits (R48); bits above `nbits` are 0 (log entry 4). -/
def State.withFetchWord (s : State) (nbits w : Nat) : State :=
  s.acceptNow (BitVec.ofNat 32 (w % 2 ^ nbits))

end Sys2Proof.Machine
end

