-- ==== Sys2Proof/Safety.lean ====
section
/-! DEFINITION. The terms in which claims are made: how a command ends, when a command may run, the
invariants of the machine and what a command leaves alone. None of it is used by the machine; each
is written from the spec apart from the machine's own definitions. -/

namespace Sys2Proof.Machine

/-! ### How a command ends -/

/-- STATUS after a completion with error code `code` (R74, R76): BUSY 0, DONE 1, ERR the code, WIGN
and the reserved bits as before. -/
def statusEnds (code : Nat) (before after : Word) : Prop :=
  statusBusy after = false ∧ statusDone after = true ∧ (statusErr after).toNat = code ∧
    statusWign after = statusWign before ∧
    ∀ i, i = 3 ∨ 7 ≤ i → after.getLsbD i = before.getLsbD i

/-- The state is as before but for STATUS (R75). -/
def onlyStatusChanges (s t : State) : Prop := t = { s with status := t.status }

/-- The state is as before but for STATUS, V0, V1 and the hidden registers that are unspecified
outside a command (R17, R21, R25). Data memory, every byte of it, is as before. -/
def blockFrame (s t : State) : Prop :=
  t = { s with
    status := t.status, v0 := t.v0, v1 := t.v1
    sum := t.sum, round := t.round, blk := t.blk, draws := t.draws }

/-- The state is as before but for STATUS, OUTLEN, data memory and the hidden registers that are
unspecified outside a command (R21, R25, R70). -/
def bufferFrame (s t : State) : Prop :=
  t = { s with
    status := t.status, outlen := t.outlen, mem := t.mem
    sum := t.sum, round := t.round, blk := t.blk, draws := t.draws }

/-! ### What a host access does -/

/-- A 32-bit write of `v` at byte offset `offset` of the window leaves the state `t` (R36). -/
def State.writeLeaves (s : State) (offset : Nat) (v : Word) (t : State) : Prop :=
  takeTurn (.regWrite 32 (s.regBase + offset) v) s = .next t

/-- A 32-bit read at byte offset `offset` of the window returns `v` to the host, and nothing else
changes (R37). -/
def State.readAnswers (s : State) (offset : Nat) (v : Word) : Prop :=
  takeTurn (.regRead 32 (s.regBase + offset)) s =
    .next { s with responses := .word v :: s.responses }

/-! ### When a command may run -/

/-- The number of blocks of an encryption, `ceil(len / 8)` (R62). -/
def encBlocks (s : State) : Nat := (s.len.toNat + 7) / 8

/-- No partial overlap of the input range of `n` bytes and the output range of `m` bytes: one of them
is empty, they start together, or they do not meet (R73, D9, D28). -/
def rangesApart (src n dst m : Nat) : Prop :=
  n = 0 ∨ src = dst ∨ dst + m ≤ src ∨ src + n ≤ dst

/-- ENC_BUF passes validation (R66, R73). -/
def EncBufReady (s : State) : Prop :=
  s.keylen = 4#32 ∧ 8 * encBlocks s < 2 ^ 32 ∧
    s.src.toNat + s.len.toNat ≤ s.memSize ∧ s.dst.toNat + 8 * encBlocks s ≤ s.memSize ∧
    rangesApart s.src.toNat s.len.toNat s.dst.toNat (8 * encBlocks s)

/-- DEC_BUF passes validation (R67, R73). -/
def DecBufReady (s : State) : Prop :=
  s.keylen = 4#32 ∧ s.len.toNat % 8 = 0 ∧
    s.src.toNat + s.len.toNat ≤ s.memSize ∧ s.dst.toNat + s.len.toNat ≤ s.memSize ∧
    rangesApart s.src.toNat s.len.toNat s.dst.toNat s.len.toNat

/-- Byte `k` of a buffer command's input, zero at or beyond LEN (R63). -/
def paddedInput (s : State) (k : Nat) : Byte :=
  if k < s.len.toNat then Memory.read s.mem (s.src.toNat + k) else 0#8

/-- Block `i` of a buffer command's input, zero-extended (R31, R63). -/
def inputBlock (s : State) (i : Nat) : Block :=
  blockOfBytes (fun j => paddedInput s (8 * i + j))

/-- The code Validate gives for the command word `c` (R73), on numbers: the first failing check of
the spec's list, 0 when none fails. -/
def firstError (c : Word) (s : State) : Nat :=
  let len := s.len.toNat
  let outLen := if c.toNat % 2 = 0 then 8 * ((len + 7) / 8) else len
  if c.toNat / 8 ≠ 0 ∨ c.toNat / 4 % 2 ≠ 1 then 3
  else if s.keylen.toNat ≠ 4 then 1
  else if c.toNat / 2 % 2 = 0 then 0
  else if c.toNat % 2 = 1 ∧ len % 8 ≠ 0 then 2
  else if 2 ^ 32 ≤ outLen ∨ s.memSize < s.src.toNat + len ∨ s.memSize < s.dst.toNat + outLen then 4
  else if 0 < len ∧ s.src ≠ s.dst ∧ s.src.toNat < s.dst.toNat + outLen ∧
      s.dst.toNat < s.src.toNat + len then 5
  else 0

/-- A run has ended: the host's program is over and no command is in progress (R97). -/
def State.finished (s : State) : Bool := s.turns.isEmpty && !s.busy

/-- The action a step takes is the engine's (R72): it is its turn, or nobody else has one. -/
def State.engineMoves (s : State) : Prop := s.turns = [] ∨ s.turns.head? = some .engine

/-- A buffer command has been accepted and not completed, and `a` is in its output range (R61). -/
def State.runningOutput (s : State) (a : Nat) : Prop :=
  s.busy = true ∧ ∃ i, decode s.pend = .ok i ∧ commandIsBuffer i = true ∧
    s.dst.toNat ≤ a ∧ a < s.dst.toNat + outLength i s.len.toNat

/-! ### Invariants -/

/-- STATUS is a value the spec's states allow (R14, R77): reserved bits 0; never busy and done; no
error code while busy; no reserved code; and 0 while neither busy nor done. -/
def statusLegal (st : Word) : Prop :=
  (∀ i, i = 3 ∨ 7 ≤ i → st.getLsbD i = false) ∧
    ¬(statusBusy st = true ∧ statusDone st = true) ∧
    (statusBusy st = true → statusErr st = 0#3) ∧
    (statusErr st).toNat ≤ 5 ∧
    (statusBusy st = false → statusDone st = false → st = 0#32)

/-- Data memory is in its canonical form and holds no byte that does not exist (R28). -/
def State.memLegal (s : State) : Prop :=
  Memory.wf s.mem = true ∧ ∀ c ∈ s.mem, c.1 < s.memSize

/-- The host's duty covers the ranges of the buffer command in progress (R42). -/
def State.dutyCovers (s : State) : Prop :=
  s.busy = true → ∀ i, decode s.pend = .ok i → commandIsBuffer i = true →
    bufferExtent i s ∈ s.duty

/-- OUTLEN is a whole number of blocks that the data memory holds (R19, R66, R67). -/
def State.outlenLegal (s : State) : Prop :=
  s.outlen.toNat % 8 = 0 ∧ s.outlen.toNat ≤ s.memSize

/-- REG_BASE is aligned to 64 (R6). -/
def State.windowAligned (s : State) : Prop := s.regBase % 64 = 0

/-- Everything above. -/
def State.Inv (s : State) : Prop :=
  statusLegal s.status ∧ s.memLegal ∧ s.dutyCovers ∧ s.outlenLegal ∧ s.windowAligned

end Sys2Proof.Machine
end

