-- ==== Sys2Proof/Certificates/Slice0/Obligations.lean ====
section
/-! DEFINITION. The statements for the provers. Each docstring names the rule of the spec it
formalises; where a clause rests on a choice of the model, it names the log entry. -/

open Sys2Proof Sys2Proof.Machine

/-! ### Encoding and the running of a command -/

/-- R47: a word is legal exactly when c[31:3] = 0 and c[2] = 1, that is when it is one of 4 to 7; its
MODE and DIR bits name the operation. -/
def Obligations.LegalWordsAreTheFourCommands : Prop :=
  ∀ c : Word,
    ((∃ i, decode c = .ok i) ↔ c.toNat / 8 = 0 ∧ c.toNat / 4 % 2 = 1) ∧
    ((∃ i, decode c = .ok i) ↔ 4 ≤ c.toNat ∧ c.toNat ≤ 7) ∧
    ∀ i, decode c = .ok i →
      (commandIsBuffer i = true ↔ c.toNat / 2 % 2 = 1) ∧
      (commandIsDecrypt i = true ↔ c.toNat % 2 = 1)

/-- The table of R50: the four words, bit by bit, name the four commands. -/
def Obligations.TableWordsDecode : Prop :=
  decode 0b00000000000000000000000000000100#32 = .ok .encBlock ∧
  decode 0b00000000000000000000000000000101#32 = .ok .decBlock ∧
  decode 0b00000000000000000000000000000110#32 = .ok .encBuf ∧
  decode 0b00000000000000000000000000000111#32 = .ok .decBuf

/-- Decoding the word of a well-formed command gives it back, and no other word decodes to it. -/
def Obligations.DecodeAndEncodeAgree : Prop :=
  ∀ i : Instr, i.wf = true → ∀ c : Word, decode c = .ok i ↔ c = encode i

/-- R51: an illegal word is accepted like any other and ends with IllegalCommand, code 3, and no other
effect: from any idle state with nothing else to happen, the host's write of it to CMD and the
engine's step leave STATUS 0x00000032, PEND the word, and everything else as it was. -/
def Obligations.IllegalWordEndsWithCodeThree : Prop :=
  ∀ (s : State) (c : Word), s.busy = false → c.toNat / 8 ≠ 0 ∨ c.toNat / 4 % 2 ≠ 1 →
    takeTurn (.regWrite 32 (s.regBase + 0x00) c) s =
        .next { s with pend := c, status := 0x00000001#32 } ∧
      engineTurn { s with pend := c, status := 0x00000001#32 } =
        .next { s with pend := c, status := 0x00000032#32 }

/-- A step runs the command that PEND decodes to, when a command is in progress and the engine
moves, and with an entry of `turns` left the step takes that entry (log entry 5). -/
def Obligations.StepRunsTheDecodedCommand : Prop :=
  (∀ (s : State) (i : Instr), s.busy = true → decode s.pend = .ok i →
    (s.turns = [] → step s = exec i s) ∧
    ∀ rest, s.turns = .engine :: rest → step s = exec i { s with turns := rest }) ∧
  ∀ (s : State) (t : Turn) (rest : List Turn), s.turns = t :: rest →
    step s = takeTurn t { s with turns := rest }

/-- A table word placed with `withFetchWord` is the command the very next step runs, in the state its
acceptance leaves (R71; log entry 4). -/
def Obligations.PlacedWordRunsNext : Prop :=
  ∀ (s : State) (nbits w : Nat) (i : Instr), decodeTableWord nbits w = some i →
    step (s.withFetchWord nbits w) = exec i (s.accept (encode i))

/-- R89: while STATUS.BUSY = 0 the engine is idle and every register keeps its value. -/
def Obligations.IdleEngineKeepsEverything : Prop :=
  ∀ s : State, s.busy = false →
    engineTurn s = .next s ∧ (s.turns = [] → step s = .next s)

/-! ### The Block Transform -/

/-- R54: the mixing function, each term modulo 2^32 before the exclusive ors, which associate either
way. -/
def Obligations.MixComputesTheThreeTerms : Prop :=
  ∀ x s ka kb : Word,
    (mix x s ka kb).toNat =
      (((x.toNat * 16 % 2 ^ 32 + ka.toNat) % 2 ^ 32) ^^^ ((x.toNat + s.toNat) % 2 ^ 32)) ^^^
        ((x.toNat / 32 + kb.toNat) % 2 ^ 32) ∧
    (mix x s ka kb).toNat =
      ((x.toNat * 16 % 2 ^ 32 + ka.toNat) % 2 ^ 32) ^^^ (((x.toNat + s.toNat) % 2 ^ 32) ^^^
        ((x.toNat / 32 + kb.toNat) % 2 ^ 32))

/-- R55: EncryptBlock is 32 rounds from sum 0. Round r + 1 first steps the sum by 0x9E3779B9, then
adds to v0 from v1, then to v1 from the v0 just written. After round r the sum is r * 0x9E3779B9
modulo 2^32, after round 32 the terminal sum 0xC6EF3720, and the output is the last (v0, v1). -/
def Obligations.EncryptBlockIsThePseudocode : Prop :=
  ∀ (k : Key) (b : Block),
    let w := fun r => repeatRound (encryptRound k) r (encryptStart b)
    (w 0).v0 = b.v0 ∧ (w 0).v1 = b.v1 ∧ (w 0).sum = 0#32 ∧
    (∀ r,
      (w (r + 1)).sum = (w r).sum + 0x9E3779B9#32 ∧
      (w (r + 1)).v0 = (w r).v0 + ((((w r).v1 <<< 4) + k.k0) ^^^ ((w r).v1 + (w (r + 1)).sum) ^^^
        (((w r).v1 >>> 5) + k.k1)) ∧
      (w (r + 1)).v1 = (w r).v1 + ((((w (r + 1)).v0 <<< 4) + k.k2) ^^^
        ((w (r + 1)).v0 + (w (r + 1)).sum) ^^^ (((w (r + 1)).v0 >>> 5) + k.k3)) ∧
      (w r).sum = BitVec.ofNat 32 r * 0x9E3779B9#32) ∧
    (w 32).sum = 0xC6EF3720#32 ∧
    (encryptBlock k b).v0 = (w 32).v0 ∧ (encryptBlock k b).v1 = (w 32).v1

/-- R56: DecryptBlock is 32 rounds from sum 0xC6EF3720. Round j subtracts from v1 from the current
v0, then from v0 from the v1 just written, with the sum (33 - j) * 0x9E3779B9 modulo 2^32, and then
steps the sum down; after round 32 the sum is 0. -/
def Obligations.DecryptBlockIsThePseudocode : Prop :=
  ∀ (k : Key) (b : Block),
    let w := fun r => repeatRound (decryptRound k) r (decryptStart b)
    (w 0).v0 = b.v0 ∧ (w 0).v1 = b.v1 ∧ (w 0).sum = 0xC6EF3720#32 ∧
    (∀ r,
      (w (r + 1)).v1 = (w r).v1 - ((((w r).v0 <<< 4) + k.k2) ^^^ ((w r).v0 + (w r).sum) ^^^
        (((w r).v0 >>> 5) + k.k3)) ∧
      (w (r + 1)).v0 = (w r).v0 - ((((w (r + 1)).v1 <<< 4) + k.k0) ^^^
        ((w (r + 1)).v1 + (w r).sum) ^^^ (((w (r + 1)).v1 >>> 5) + k.k1)) ∧
      (w (r + 1)).sum = (w r).sum - 0x9E3779B9#32) ∧
    (∀ j, 1 ≤ j → j ≤ 32 → (w (j - 1)).sum = BitVec.ofNat 32 (33 - j) * 0x9E3779B9#32) ∧
    (w 32).sum = 0#32 ∧
    (decryptBlock k b).v0 = (w 32).v0 ∧ (decryptBlock k b).v1 = (w 32).v1

/-- R57: the two functions are inverse to each other for every block and every key, so each is a
bijection on blocks; and a decrypt round undoes the encrypt round before it, half by half and with
its sum. -/
def Obligations.DecryptAndEncryptAreInverse : Prop :=
  ∀ k : Key,
    (∀ b : Block, decryptBlock k (encryptBlock k b) = b) ∧
    (∀ b : Block, encryptBlock k (decryptBlock k b) = b) ∧
    Function.Bijective (encryptBlock k) ∧
    ∀ w : Work, (decryptRound k (encryptRound k w)).block = w.block ∧
      (decryptRound k (encryptRound k w)).sum = w.sum

/-! ### The block commands -/

/-- R59: ENC_BLOCK, command word 4, with KEYLEN = 4 completes with V0, V1 the encrypted block, both
inputs read before either output is written, and touches nothing else but STATUS and the hidden
registers; with any other KEYLEN it ends with InvalidKeyLength, code 1, and writes STATUS alone. The
rule's example and its shift of a word with bit 31 set are the first clauses. -/
def Obligations.EncBlockEncryptsTheBlock : Prop :=
  encode .encBlock = 0x00000004#32 ∧
  encryptBlock ⟨0#32, 0#32, 0#32, 0#32⟩ ⟨0#32, 0#32⟩ = ⟨0x41EA3A0A#32, 0x94BAA940#32⟩ ∧
  0x80000000#32 >>> 5 = 0x04000000#32 ∧
  ∀ s : State,
    (s.keylen = 4#32 →
      ∃ t, exec .encBlock s = .next t ∧
        (⟨t.v0, t.v1⟩ : Block) = encryptBlock ⟨s.k0, s.k1, s.k2, s.k3⟩ ⟨s.v0, s.v1⟩ ∧
        statusEnds 0 s.status t.status ∧ blockFrame s t) ∧
    (s.keylen ≠ 4#32 →
      ∃ t, exec .encBlock s = .next t ∧ statusEnds 1 s.status t.status ∧ onlyStatusChanges s t)

/-- R60: DEC_BLOCK, command word 5, likewise, with the decrypted block. ENC_BLOCK followed by
DEC_BLOCK restores V0 and V1, and so does DEC_BLOCK followed by ENC_BLOCK. The rule's example is the
second clause. -/
def Obligations.DecBlockDecryptsTheBlock : Prop :=
  encode .decBlock = 0x00000005#32 ∧
  decryptBlock ⟨0#32, 0#32, 0#32, 0#32⟩ ⟨0x41EA3A0A#32, 0x94BAA940#32⟩ = ⟨0#32, 0#32⟩ ∧
  ∀ s : State,
    (s.keylen = 4#32 →
      ∃ t, exec .decBlock s = .next t ∧
        (⟨t.v0, t.v1⟩ : Block) = decryptBlock ⟨s.k0, s.k1, s.k2, s.k3⟩ ⟨s.v0, s.v1⟩ ∧
        statusEnds 0 s.status t.status ∧ blockFrame s t) ∧
    (s.keylen ≠ 4#32 →
      ∃ t, exec .decBlock s = .next t ∧ statusEnds 1 s.status t.status ∧ onlyStatusChanges s t) ∧
    (s.keylen = 4#32 →
      (∃ t u, exec .encBlock s = .next t ∧ exec .decBlock t = .next u ∧
        u.v0 = s.v0 ∧ u.v1 = s.v1) ∧
      ∃ t u, exec .decBlock s = .next t ∧ exec .encBlock t = .next u ∧
        u.v0 = s.v0 ∧ u.v1 = s.v1)

/-! ### Bytes and the buffer commands -/

/-- R31: LE32 and BYTES on numbers, inverse to each other, and v0 at the lower four addresses of a
block. -/
def Obligations.ByteOrderIsLittleEndian : Prop :=
  (∀ b0 b1 b2 b3 : Byte,
    (le32 b0 b1 b2 b3).toNat =
      b0.toNat + b1.toNat * 2 ^ 8 + b2.toNat * 2 ^ 16 + b3.toNat * 2 ^ 24) ∧
  (∀ (w : Word) (k : Nat), k < 4 → (wordByte w k).toNat = w.toNat / 2 ^ (8 * k) % 2 ^ 8) ∧
  (∀ w : Word, le32 (wordByte w 0) (wordByte w 1) (wordByte w 2) (wordByte w 3) = w) ∧
  (∀ b : Nat → Byte,
    blockOfBytes b = ⟨le32 (b 0) (b 1) (b 2) (b 3), le32 (b 4) (b 5) (b 6) (b 7)⟩) ∧
  (∀ (b : Nat → Byte) (j : Nat), j < 8 → blockByte (blockOfBytes b) j = b j) ∧
  ∀ b : Block, blockOfBytes (blockByte b) = b

/-- R66, R61 to R65, R70: from every state in which ENC_BUF passes validation it completes. Byte j
of output block i is byte j of the encryption of input block i, zero-extended; every byte outside
the output range is as before; OUTLEN is 8 * ceil(LEN / 8); STATUS says success; nothing else but
the hidden registers changes. -/
def Obligations.EncBufEncryptsTheBuffer : Prop :=
  ∀ s : State, EncBufReady s →
    ∃ t, exec .encBuf s = .next t ∧
      (∀ i j, i < encBlocks s → j < 8 →
        Memory.read t.mem (s.dst.toNat + 8 * i + j) =
          blockByte (encryptBlock ⟨s.k0, s.k1, s.k2, s.k3⟩ (inputBlock s i)) j) ∧
      (∀ a, a < s.dst.toNat ∨ s.dst.toNat + 8 * encBlocks s ≤ a →
        Memory.read t.mem a = Memory.read s.mem a) ∧
      t.outlen.toNat = 8 * encBlocks s ∧ statusEnds 0 s.status t.status ∧ bufferFrame s t

/-- R67, R61 to R65, R70: the same of DEC_BUF, whose output is as long as its input. -/
def Obligations.DecBufDecryptsTheBuffer : Prop :=
  ∀ s : State, DecBufReady s →
    ∃ t, exec .decBuf s = .next t ∧
      (∀ i j, i < s.len.toNat / 8 → j < 8 →
        Memory.read t.mem (s.dst.toNat + 8 * i + j) =
          blockByte (decryptBlock ⟨s.k0, s.k1, s.k2, s.k3⟩ (inputBlock s i)) j) ∧
      (∀ a, a < s.dst.toNat ∨ s.dst.toNat + s.len.toNat ≤ a →
        Memory.read t.mem a = Memory.read s.mem a) ∧
      t.outlen = s.len ∧ statusEnds 0 s.status t.status ∧ bufferFrame s t

/-- R62: a zero-length buffer command that passes validation succeeds, changes no memory and sets
OUTLEN to 0. -/
def Obligations.EmptyBufferWritesNothing : Prop :=
  ∀ s : State, s.len = 0#32 →
    (EncBufReady s → ∃ t, exec .encBuf s = .next t ∧ t.mem = s.mem ∧ t.outlen = 0#32 ∧
      statusEnds 0 s.status t.status) ∧
    (DecBufReady s → ∃ t, exec .decBuf s = .next t ∧ t.mem = s.mem ∧ t.outlen = 0#32 ∧
      statusEnds 0 s.status t.status)

/-- R68: ENC_BUF and then DEC_BUF of its output, to any place that DEC_BUF accepts, gives the
plaintext followed by zeros up to a whole number of blocks. The state between them has SRC and LEN
set to the ciphertext and DST to the place. -/
def Obligations.BufferRoundTripPadsWithZeros : Prop :=
  ∀ (s t : State) (place : Word), EncBufReady s → exec .encBuf s = .next t →
    DecBufReady { t with src := s.dst, dst := place, len := t.outlen } →
    ∃ u, exec .decBuf { t with src := s.dst, dst := place, len := t.outlen } = .next u ∧
      u.outlen.toNat = 8 * encBlocks s ∧
      (∀ k, k < s.len.toNat →
        Memory.read u.mem (place.toNat + k) = Memory.read s.mem (s.src.toNat + k)) ∧
      ∀ k, s.len.toNat ≤ k → k < 8 * encBlocks s →
        Memory.read u.mem (place.toNat + k) = 0#8

/-- R65: with no partial overlap, processing the n blocks in any order leaves the same memory, for
any block function, so for both commands. -/
def Obligations.BlockOrderIsIrrelevant : Prop :=
  ∀ (f : Block → Block) (e : Extent) (n : Nat) (order : List Nat) (m : Memory),
    e.outLen = 8 * n → e.len ≤ e.outLen → rangesApart e.src e.len e.dst e.outLen →
    order.Perm (List.range n) →
    ∀ a, Memory.read (order.foldl (fun m i => codecBlock f e i m) m) a =
      Memory.read (codecLoop f e n 0 m) a

/-- R69: an output block depends only on its own input block and the key. Equal input blocks under
one key give equal output blocks, in one command and across commands, whatever else differs. -/
def Obligations.EqualBlocksGiveEqualOutput : Prop :=
  (∀ (s s' t t' : State) (i j : Nat), EncBufReady s → EncBufReady s' → s.key = s'.key →
    exec .encBuf s = .next t → exec .encBuf s' = .next t' →
    i < encBlocks s → j < encBlocks s' → inputBlock s i = inputBlock s' j →
    ∀ k, k < 8 → Memory.read t.mem (s.dst.toNat + 8 * i + k) =
      Memory.read t'.mem (s'.dst.toNat + 8 * j + k)) ∧
  ∀ (s s' t t' : State) (i j : Nat), DecBufReady s → DecBufReady s' → s.key = s'.key →
    exec .decBuf s = .next t → exec .decBuf s' = .next t' →
    i < s.len.toNat / 8 → j < s'.len.toNat / 8 → inputBlock s i = inputBlock s' j →
    ∀ k, k < 8 → Memory.read t.mem (s.dst.toNat + 8 * i + k) =
      Memory.read t'.mem (s'.dst.toNat + 8 * j + k)

/-- R63: bytes at or beyond LEN have no effect. Two states that differ only in data memory, and not
in the input range, give the same output range, STATUS and OUTLEN. -/
def Obligations.BytesBeyondLenHaveNoEffect : Prop :=
  ∀ (s t t' : State) (m : Memory), EncBufReady s →
    (∀ k, k < s.len.toNat →
      Memory.read m (s.src.toNat + k) = Memory.read s.mem (s.src.toNat + k)) →
    exec .encBuf s = .next t → exec .encBuf { s with mem := m } = .next t' →
    (∀ a, s.dst.toNat ≤ a → a < s.dst.toNat + 8 * encBlocks s →
      Memory.read t'.mem a = Memory.read t.mem a) ∧
    t'.status = t.status ∧ t'.outlen = t.outlen

/-- R59, R66: a buffer of one block is encrypted as ENC_BLOCK encrypts the words its bytes make. -/
def Obligations.OneBlockBufferIsTheBlockCommand : Prop :=
  ∀ s : State, EncBufReady s → s.len = 8#32 →
    ∃ t u, exec .encBuf s = .next t ∧
      exec .encBlock { s with
        v0 := le32 (Memory.read s.mem s.src.toNat) (Memory.read s.mem (s.src.toNat + 1))
          (Memory.read s.mem (s.src.toNat + 2)) (Memory.read s.mem (s.src.toNat + 3))
        v1 := le32 (Memory.read s.mem (s.src.toNat + 4)) (Memory.read s.mem (s.src.toNat + 5))
          (Memory.read s.mem (s.src.toNat + 6)) (Memory.read s.mem (s.src.toNat + 7)) } = .next u ∧
      le32 (Memory.read t.mem s.dst.toNat) (Memory.read t.mem (s.dst.toNat + 1))
        (Memory.read t.mem (s.dst.toNat + 2)) (Memory.read t.mem (s.dst.toNat + 3)) = u.v0 ∧
      le32 (Memory.read t.mem (s.dst.toNat + 4)) (Memory.read t.mem (s.dst.toNat + 5))
        (Memory.read t.mem (s.dst.toNat + 6)) (Memory.read t.mem (s.dst.toNat + 7)) = u.v1

/-! ### Errors -/

/-- R73, R75, R76, R78: whatever word is pending, the engine's step completes, STATUS.ERR holds the
code of the first failing check, and a command that ends with an error writes STATUS alone. -/
def Obligations.FirstFailingCheckIsReported : Prop :=
  ∀ s : State, s.busy = true → s.turns = [] →
    ∃ t, step s = .next t ∧ statusEnds (firstError s.pend s) s.status t.status ∧
      (firstError s.pend s ≠ 0 → onlyStatusChanges s t)

/-- R15: until KEYLEN is 4 every legal command ends with InvalidKeyLength. From any idle state with
another KEYLEN the host's write of the command word and the engine's turn leave STATUS 0x00000012,
PEND the word, and everything else as it was (the host's duty is the model's own field, log entry
10). The reset state is such a state. -/
def Obligations.EveryCommandFailsBeforeAKey : Prop :=
  (∀ (s : State) (i : Instr), s.busy = false → s.keylen ≠ 4#32 →
    ∃ u t, s.writeLeaves 0x00 (encode i) u ∧ engineTurn u = .next t ∧
      t = { s with pend := encode i, status := 0x00000012#32, duty := t.duty }) ∧
  ∀ i : Instr, ∃ t, exec i (State.reset.accept (encode i)) = .next t ∧ t.status = 0x00000012#32 ∧
    t.v0 = 0#32 ∧ t.v1 = 0#32 ∧ t.outlen = 0#32 ∧ t.mem = []

/-! ### The host's register accesses -/

/-- R71: a CMD write of any value while BUSY = 0 latches it in PEND and sets STATUS to 0x00000001; a
CMD write while BUSY = 1 is not accepted, and PEND keeps its value. (The host's duty is the
model's own field, log entry 10.) -/
def Obligations.CmdWriteIsAcceptedWhenIdle : Prop :=
  ∀ (s : State) (v : Word),
    (s.busy = false →
      ∃ t, takeTurn (.regWrite 32 (s.regBase + 0x00) v) s = .next t ∧
        t = { s with pend := v, status := 0x00000001#32, duty := t.duty }) ∧
    (s.busy = true →
      ∃ t, takeTurn (.regWrite 32 (s.regBase + 0x00) v) s = .next t ∧
        t.pend = s.pend ∧ statusBusy t.status = true ∧ statusWign t.status = true)

/-- R12, R36: while the engine is idle a write at the offset of an operand register puts the value in
that register and changes nothing else, and a read at the same offset then returns it. -/
def Obligations.OperandRegistersReadBack : Prop :=
  ∀ (s : State) (v : Word), s.busy = false →
    s.writeLeaves 0x08 v { s with keylen := v } ∧
    s.writeLeaves 0x10 v { s with k0 := v } ∧
    s.writeLeaves 0x14 v { s with k1 := v } ∧
    s.writeLeaves 0x18 v { s with k2 := v } ∧
    s.writeLeaves 0x1C v { s with k3 := v } ∧
    s.writeLeaves 0x20 v { s with v0 := v } ∧
    s.writeLeaves 0x24 v { s with v1 := v } ∧
    s.writeLeaves 0x28 v { s with src := v } ∧
    s.writeLeaves 0x2C v { s with dst := v } ∧
    s.writeLeaves 0x30 v { s with len := v } ∧
    ∀ offset ∈ [0x08, 0x10, 0x14, 0x18, 0x1C, 0x20, 0x24, 0x28, 0x2C, 0x30],
      ∃ t, s.writeLeaves offset v t ∧ t.readAnswers offset v

/-- R12, R37: what a read at each offset of the window returns while the engine is idle, with no
effect on any register. (A STATUS with a reserved error code, which `StatusStaysLegal` rules out, is
set aside: log entry 13. A STATUS read may end the host's duty: log entry 10.) -/
def Obligations.IdleReadsReturnTheRegisters : Prop :=
  ∀ s : State, s.busy = false →
    s.readAnswers 0x00 0x00000000#32 ∧
    ((statusErr s.status).toNat ≤ 5 →
      ∃ t, takeTurn (.regRead 32 (s.regBase + 0x04)) s = .next t ∧
        t = { s with responses := .word s.status :: s.responses, duty := t.duty }) ∧
    s.readAnswers 0x08 s.keylen ∧
    s.readAnswers 0x0C 0x00000000#32 ∧
    s.readAnswers 0x10 s.k0 ∧
    s.readAnswers 0x14 s.k1 ∧
    s.readAnswers 0x18 s.k2 ∧
    s.readAnswers 0x1C s.k3 ∧
    s.readAnswers 0x20 s.v0 ∧
    s.readAnswers 0x24 s.v1 ∧
    s.readAnswers 0x28 s.src ∧
    s.readAnswers 0x2C s.dst ∧
    s.readAnswers 0x30 s.len ∧
    s.readAnswers 0x34 s.outlen ∧
    s.readAnswers 0x38 0x00000000#32 ∧
    s.readAnswers 0x3C 0x00000000#32

/-- R20, R36, R37: while the engine is idle a write to STATUS, OUTLEN or a reserved slot has no
effect, a reserved slot and CMD read 0x00000000, and the reserved bits of a legal STATUS read 0. -/
def Obligations.ReadOnlySlotsIgnoreWrites : Prop :=
  (∀ (s : State) (v : Word), s.busy = false →
    ∀ offset ∈ [0x04, 0x0C, 0x34, 0x38, 0x3C], s.writeLeaves offset v s) ∧
  (∀ s : State, ∀ offset ∈ [0x00, 0x0C, 0x38, 0x3C], s.readAnswers offset 0x00000000#32) ∧
  ∀ s : State, statusLegal s.status →
    ∃ t w, takeTurn (.regRead 32 (s.regBase + 0x04)) s = .next t ∧
      t.responses = .word w :: s.responses ∧ ∀ i, i = 3 ∨ 7 ≤ i → w.getLsbD i = false

/-- R38: while BUSY = 1 every write, at every offset, is ignored and sets WIGN; a read of V0, V1 or
OUTLEN gives a value nothing fixes; every other read gives the register's value, STATUS among them.
That the open value is the next free value and that the counter advances is the model's choice, log
entry 7. A STATUS with a reserved error code, which `StatusStaysLegal` rules out, is set aside: log
entry 13. -/
def Obligations.BusyWindowIgnoresWrites : Prop :=
  ∀ (s : State) (v : Word), s.busy = true →
    (∀ offset, offset < 64 → offset % 4 = 0 →
      ∃ t, s.writeLeaves offset v t ∧
        statusWign t.status = true ∧ statusBusy t.status = true ∧
        statusErr t.status = statusErr s.status ∧ onlyStatusChanges s t) ∧
    (∀ offset ∈ [0x20, 0x24, 0x34],
      takeTurn (.regRead 32 (s.regBase + offset)) s =
        .next { s with
          responses := .word (Config.freeWord s.draws) :: s.responses, draws := s.draws + 1 }) ∧
    ((statusErr s.status).toNat ≤ 5 → s.readAnswers 0x04 s.status) ∧
    s.readAnswers 0x00 0x00000000#32 ∧
    s.readAnswers 0x08 s.keylen ∧
    s.readAnswers 0x0C 0x00000000#32 ∧
    s.readAnswers 0x10 s.k0 ∧
    s.readAnswers 0x14 s.k1 ∧
    s.readAnswers 0x18 s.k2 ∧
    s.readAnswers 0x1C s.k3 ∧
    s.readAnswers 0x28 s.src ∧
    s.readAnswers 0x2C s.dst ∧
    s.readAnswers 0x30 s.len ∧
    s.readAnswers 0x38 0x00000000#32 ∧
    s.readAnswers 0x3C 0x00000000#32

/-- R37: a read has no side effect on any register, nor on data memory. -/
def Obligations.ReadsChangeNoRegister : Prop :=
  ∀ (s t : State) (width address : Nat), takeTurn (.regRead width address) s = .next t →
    t = { s with responses := t.responses, draws := t.draws, duty := t.duty } ∧
    ∃ v, t.responses = .word v :: s.responses

/-- R35: an access of another width than 32 bits, or at an offset in the window that is no multiple
of 4, is refused; a 32-bit write or read at a multiple of 4 is admitted, and reaches the slot there.
(The refusal's name is log entry 12; a read of a STATUS with a reserved error code, which
`StatusStaysLegal` rules out, is set aside: log entry 13.) -/
def Obligations.OnlyAlignedWordAccessesAreAdmitted : Prop :=
  ∀ (s : State) (width offset : Nat) (v : Word), offset < 64 →
    (width ≠ 32 ∨ offset % 4 ≠ 0 →
      takeTurn (.regWrite width (s.regBase + offset) v) s =
          .refused (.unsupportedAccess width offset) ∧
        takeTurn (.regRead width (s.regBase + offset)) s =
          .refused (.unsupportedAccess width offset)) ∧
    (width = 32 → offset % 4 = 0 →
      ∃ slot : Slot, slot.offset = offset ∧
        takeTurn (.regWrite width (s.regBase + offset) v) s = .next (s.hostWrite slot v) ∧
        (offset ≠ 0x04 ∨ (statusErr s.status).toNat ≤ 5 →
          takeTurn (.regRead width (s.regBase + offset)) s = .next (s.hostRead slot)))

/-! ### The whole machine -/

/-- R15, R16, R18, R21: the engine never writes KEYLEN, K0 to K3, SRC, DST, LEN or PEND. -/
def Obligations.EngineNeverWritesKeyOrOperands : Prop :=
  ∀ s t : State, engineTurn s = .next t →
    t.keylen = s.keylen ∧ t.k0 = s.k0 ∧ t.k1 = s.k1 ∧ t.k2 = s.k2 ∧ t.k3 = s.k3 ∧
      t.src = s.src ∧ t.dst = s.dst ∧ t.len = s.len ∧ t.pend = s.pend

/-- R19: OUTLEN changes only by a buffer command that completes without error, which sets it to the
output length, and by reset, which clears it. -/
def Obligations.OnlyBufferCommandsChangeOutlen : Prop :=
  ∀ s t : State, step s = .next t → t.outlen ≠ s.outlen →
    (s.turns.head? = some .reset ∧ t.outlen = 0#32) ∨
    (s.engineMoves ∧ s.busy = true ∧ firstError s.pend s = 0 ∧
      ∃ i, decode s.pend = .ok i ∧ commandIsBuffer i = true ∧
        t.outlen.toNat = outLength i s.len.toNat ∧ statusErr t.status = 0#3)

/-- R14, R71, R72: BUSY rises only at a host write to CMD, falls only at an engine's step or a reset,
and DONE rises only where BUSY falls by an engine's step. -/
def Obligations.BusyRisesAtCmdAndFallsAtCompletion : Prop :=
  ∀ s t : State, step s = .next t →
    (s.busy = false → t.busy = true →
      ∃ v rest, s.turns = .regWrite 32 (s.regBase + 0x00) v :: rest ∧ t.pend = v) ∧
    (s.busy = true → t.busy = false → s.engineMoves ∨ s.turns.head? = some .reset) ∧
    (s.done = false → t.done = true → s.busy = true ∧ s.engineMoves)

/-- R14, R71, R76: DONE falls only at an acceptance or a reset, and ERR changes only at an acceptance,
a completion or a reset. -/
def Obligations.DoneAndErrAreKeptBetweenCommands : Prop :=
  ∀ s t : State, step s = .next t →
    (s.done = true → t.done = false →
      s.turns.head? = some .reset ∨
        (s.busy = false ∧ ∃ v rest, s.turns = .regWrite 32 (s.regBase + 0x00) v :: rest)) ∧
    (statusErr t.status ≠ statusErr s.status →
      s.turns.head? = some .reset ∨
        (s.busy = false ∧ ∃ v rest, s.turns = .regWrite 32 (s.regBase + 0x00) v :: rest) ∨
        (s.busy = true ∧ s.engineMoves))

/-- R14, R38, R71, R74: WIGN rises only at a host register write while BUSY = 1, and falls only at an
acceptance or a reset. -/
def Obligations.WignRecordsBusyWrites : Prop :=
  ∀ s t : State, step s = .next t →
    (statusWign s.status = false → statusWign t.status = true →
      s.busy = true ∧ ∃ w a v rest, s.turns = .regWrite w a v :: rest) ∧
    (statusWign s.status = true → statusWign t.status = false →
      s.turns.head? = some .reset ∨
        ∃ v rest, s.turns = .regWrite 32 (s.regBase + 0x00) v :: rest)

/-- R28, R30, R66, R70, R92: a byte of data memory changes only by the host's own write of it, or,
inside the output range of a running buffer command, by the engine's step or a reset. -/
def Obligations.MemoryChangesOnlyWhereItMay : Prop :=
  ∀ (s t : State) (a : Nat), step s = .next t → Memory.read t.mem a ≠ Memory.read s.mem a →
    (∃ b bs rest, s.turns = .memWrite b bs :: rest ∧ b ≤ a ∧ a < b + bs.length) ∨
    (s.runningOutput a ∧ (s.engineMoves ∨ s.turns.head? = some .reset))

/-- R25, R27, 93_implementation_defined.md O13: sum, round and blk have no effect on anything but
themselves, whatever they hold; nor has PEND while no command is in progress. -/
def Obligations.HiddenRegistersAreUnobservable : Prop :=
  (∀ (s t : State) (sum : Word) (round : BitVec 6) (blk : BitVec 30), step s = .next t →
    ∃ t', step { s with sum := sum, round := round, blk := blk } = .next t' ∧
      t = { t' with sum := t.sum, round := t.round, blk := t.blk }) ∧
  ∀ (s t : State) (pend : Word), s.busy = false → step s = .next t →
    ∃ t', step { s with pend := pend } = .next t' ∧ t = { t' with pend := t.pend }

/-- R6: no step changes MEM_SIZE or REG_BASE. -/
def Obligations.PlatformParametersAreFixed : Prop :=
  ∀ s t : State, step s = .next t → t.memTop = s.memTop ∧ t.regBase = s.regBase

/-! ### Invariants -/

/-- R14, R77: STATUS stays a legal value: reserved bits 0, never busy and done together, no reserved
code, 0 when neither busy nor done. -/
def Obligations.StatusStaysLegal : Prop :=
  ∀ s t : State, statusLegal s.status → step s = .next t → statusLegal t.status

/-- R28: data memory stays in its canonical form and holds no byte outside 0 .. MEM_SIZE-1. -/
def Obligations.MemoryStaysLegal : Prop :=
  ∀ s t : State, s.memLegal → step s = .next t → t.memLegal

/-- R42: the ranges of the buffer command in progress stay among those the host must keep off (log
entry 10). -/
def Obligations.DutyCoversTheRunningCommand : Prop :=
  ∀ s t : State, s.dutyCovers → step s = .next t → t.dutyCovers

/-- R19, R66, R67: OUTLEN stays a whole number of blocks that data memory holds. -/
def Obligations.OutlenStaysWholeBlocks : Prop :=
  ∀ s t : State, s.outlenLegal → step s = .next t → t.outlenLegal

/-- The invariants hold in the reset state, which is idle with nothing left to do and stays so. -/
def Obligations.ResetMeetsTheInvariants : Prop :=
  State.reset.Inv ∧ State.reset.finished = true ∧ step State.reset = .next State.reset

/-! ### Reset and the host's duty -/

/-- R27, R91: the values the spec gives for reset, in the reset state. -/
def Obligations.ResetStateHoldsTheSpecValues : Prop :=
  State.reset.status = 0#32 ∧ State.reset.keylen = 0#32 ∧ State.reset.k0 = 0#32 ∧
    State.reset.k1 = 0#32 ∧ State.reset.k2 = 0#32 ∧ State.reset.k3 = 0#32 ∧
    State.reset.v0 = 0#32 ∧ State.reset.v1 = 0#32 ∧ State.reset.src = 0#32 ∧
    State.reset.dst = 0#32 ∧ State.reset.len = 0#32 ∧ State.reset.outlen = 0#32 ∧
    State.reset.pend = 0#32

/-- R91, R92: a reset clears every register, in whatever state it comes. Outside a buffer command in
progress that would have passed validation it keeps all of data memory; during one it keeps every
byte outside the output range. -/
def Obligations.ResetClearsRegistersKeepsMemory : Prop :=
  ∀ s : State, ∃ t, takeTurn .reset s = .next t ∧
    (t.status = 0#32 ∧ t.keylen = 0#32 ∧ t.k0 = 0#32 ∧ t.k1 = 0#32 ∧ t.k2 = 0#32 ∧
      t.k3 = 0#32 ∧ t.v0 = 0#32 ∧ t.v1 = 0#32 ∧ t.src = 0#32 ∧ t.dst = 0#32 ∧ t.len = 0#32 ∧
      t.outlen = 0#32 ∧ t.pend = 0#32) ∧
    (s.busy = false ∨ firstError s.pend s ≠ 0 ∨ s.pend.toNat / 2 % 2 = 0 → t.mem = s.mem) ∧
    ∀ a, ¬s.runningOutput a → Memory.read t.mem a = Memory.read s.mem a

/-- R42, R90: where the duty covers the running command, a host write that touches a byte of its input
or output range, or a host read that touches a byte of its output range, is the model fault
HostRace. (The duty list is the model's form of the host's duty, log entry 10.) -/
def Obligations.HostRaceIsAFault : Prop :=
  ∀ (s : State) (i : Instr) (x : Nat), s.busy = true → decode s.pend = .ok i →
    commandIsBuffer i = true → s.dutyCovers →
    (∀ a bs, a + bs.length ≤ s.memSize → a ≤ x → x < a + bs.length →
      (s.src.toNat ≤ x ∧ x < s.src.toNat + s.len.toNat) ∨ s.runningOutput x →
      takeTurn (.memWrite a bs) s = .fault .hostRace) ∧
    (∀ a n, a + n ≤ s.memSize → a ≤ x → x < a + n → s.runningOutput x →
      takeTurn (.memRead a n) s = .fault .hostRace)

/-- R28, R42, R94: outside the ranges of the duty the host reads back what it wrote, and its write
changes no other byte and no register. That the write is allowed while BUSY = 1 too, against the note
beside `MW` in R52, is log entry 14, and the duty list is log entry 10. -/
def Obligations.HostReadsBackWhatItWrote : Prop :=
  ∀ (s : State) (a : Nat) (bs : List Byte), a + bs.length ≤ s.memSize →
    (∀ e ∈ s.duty, ∀ x, a ≤ x → x < a + bs.length →
      ¬(e.src ≤ x ∧ x < e.src + e.len) ∧ ¬(e.dst ≤ x ∧ x < e.dst + e.outLen)) →
    ∃ t u, takeTurn (.memWrite a bs) s = .next t ∧ t = { s with mem := t.mem } ∧
      (∀ x, x < a ∨ a + bs.length ≤ x → Memory.read t.mem x = Memory.read s.mem x) ∧
      takeTurn (.memRead a bs.length) t = .next u ∧
      u = { t with responses := .bytes bs :: s.responses }

/-- R42, R94: a host read that touches no byte of an output range of the duty answers the bytes and
changes nothing else, at any time: the input range of a running buffer command may be read. (The duty
list is log entry 10, the responses log entry 6.) -/
def Obligations.HostMayReadOutsideTheOutputRanges : Prop :=
  ∀ (s : State) (a n : Nat), a + n ≤ s.memSize →
    (∀ e ∈ s.duty, ∀ x, a ≤ x → x < a + n → ¬(e.dst ≤ x ∧ x < e.dst + e.outLen)) →
    ∃ bs : List Byte, bs.length = n ∧
      (∀ k, k < n → bs[k]? = some (Memory.read s.mem (a + k))) ∧
      takeTurn (.memRead a n) s = .next { s with responses := .bytes bs :: s.responses }

/-- R41 item 5, R42: a STATUS read that returns BUSY = 0 and DONE = 1 ends the host's duty, and no
other register read does (log entry 10). -/
def Obligations.ObservedCompletionEndsTheDuty : Prop :=
  ∀ (s t : State) (offset : Nat), takeTurn (.regRead 32 (s.regBase + offset)) s = .next t →
    (offset = 0x04 → s.busy = false → s.done = true → t.duty = []) ∧
    (offset ≠ 0x04 ∨ s.busy = true ∨ s.done = false → t.duty = s.duty)
end

