-- ==== Sys2Proof/Laws/Cipher.lean ====
section
/-! SUPPORT. The rounds of the Block Transform, for any number of them (40_block_transform.md R55,
R56). Proofs about a block take `n` rounds and put 32 in at the end: a proof that unfolds all 32 makes
the kernel do so too. -/

namespace Sys2Proof.Machine

/-- One more round at the end. -/
theorem repeatRound_succ (f : Work → Work) (n : Nat) (w : Work) :
    repeatRound f (n + 1) w = f (repeatRound f n w) := by
  induction n generalizing w with
  | zero => rfl
  | succ n ih => rw [repeatRound, ih, repeatRound]

/-- The sum after `n` encrypt rounds (R55). -/
theorem sum_encryptRounds (k : Key) (n : Nat) (w : Work) :
    (repeatRound (encryptRound k) n w).sum = w.sum + BitVec.ofNat 32 n * delta := by
  induction n with
  | zero => simp [repeatRound]
  | succ n ih =>
    rw [repeatRound_succ]
    simp only [encryptRound, ih]
    rw [BitVec.ofNat_add, BitVec.add_mul, BitVec.add_assoc]
    simp

/-- The sum after `n` decrypt rounds (R56). -/
theorem sum_decryptRounds (k : Key) (n : Nat) (w : Work) :
    (repeatRound (decryptRound k) n w).sum = w.sum - BitVec.ofNat 32 n * delta := by
  induction n with
  | zero => simp [repeatRound]
  | succ n ih =>
    rw [repeatRound_succ]
    simp only [decryptRound, ih]
    rw [BitVec.ofNat_add, BitVec.add_mul]
    simp [BitVec.sub_sub]

/-- EncryptBlock is `rounds` rounds (R55). -/
theorem encryptBlock_eq (k : Key) (b : Block) :
    encryptBlock k b = (repeatRound (encryptRound k) rounds (encryptStart b)).block := rfl

/-- DecryptBlock is `rounds` rounds (R56). -/
theorem decryptBlock_eq (k : Key) (b : Block) :
    decryptBlock k b = (repeatRound (decryptRound k) rounds (decryptStart b)).block := rfl

end Sys2Proof.Machine
end

