-- ==== Sys2Proof/Laws/State.lean ====
section
/-! SUPPORT. What each named update of State leaves in each field, one lemma per field, true by rfl. -/

namespace Sys2Proof.Machine

/-! Acceptance writes PEND, STATUS and the duty (R71). -/

@[simp] theorem State.accept_status (v : Word) (s : State) : (s.accept v).status = statusAccepted := rfl
@[simp] theorem State.accept_keylen (v : Word) (s : State) : (s.accept v).keylen = s.keylen := rfl
@[simp] theorem State.accept_k0 (v : Word) (s : State) : (s.accept v).k0 = s.k0 := rfl
@[simp] theorem State.accept_k1 (v : Word) (s : State) : (s.accept v).k1 = s.k1 := rfl
@[simp] theorem State.accept_k2 (v : Word) (s : State) : (s.accept v).k2 = s.k2 := rfl
@[simp] theorem State.accept_k3 (v : Word) (s : State) : (s.accept v).k3 = s.k3 := rfl
@[simp] theorem State.accept_v0 (v : Word) (s : State) : (s.accept v).v0 = s.v0 := rfl
@[simp] theorem State.accept_v1 (v : Word) (s : State) : (s.accept v).v1 = s.v1 := rfl
@[simp] theorem State.accept_src (v : Word) (s : State) : (s.accept v).src = s.src := rfl
@[simp] theorem State.accept_dst (v : Word) (s : State) : (s.accept v).dst = s.dst := rfl
@[simp] theorem State.accept_len (v : Word) (s : State) : (s.accept v).len = s.len := rfl
@[simp] theorem State.accept_outlen (v : Word) (s : State) : (s.accept v).outlen = s.outlen := rfl
@[simp] theorem State.accept_pend (v : Word) (s : State) : (s.accept v).pend = v := rfl
@[simp] theorem State.accept_sum (v : Word) (s : State) : (s.accept v).sum = s.sum := rfl
@[simp] theorem State.accept_round (v : Word) (s : State) : (s.accept v).round = s.round := rfl
@[simp] theorem State.accept_blk (v : Word) (s : State) : (s.accept v).blk = s.blk := rfl
@[simp] theorem State.accept_mem (v : Word) (s : State) : (s.accept v).mem = s.mem := rfl
@[simp] theorem State.accept_memTop (v : Word) (s : State) : (s.accept v).memTop = s.memTop := rfl
@[simp] theorem State.accept_regBase (v : Word) (s : State) : (s.accept v).regBase = s.regBase := rfl
@[simp] theorem State.accept_turns (v : Word) (s : State) : (s.accept v).turns = s.turns := rfl
@[simp] theorem State.accept_responses (v : Word) (s : State) : (s.accept v).responses = s.responses := rfl
@[simp] theorem State.accept_draws (v : Word) (s : State) : (s.accept v).draws = s.draws := rfl
@[simp] theorem State.accept_duty (v : Word) (s : State) : (s.accept v).duty = s.dutyAfter v := rfl

/-! The end of a command writes STATUS only (R74 to R76). -/

@[simp] theorem State.endCommand_status (e : Option ErrorKind) (s : State) : (s.endCommand e).status = statusCompleted (endCode e) s.status := rfl
@[simp] theorem State.endCommand_keylen (e : Option ErrorKind) (s : State) : (s.endCommand e).keylen = s.keylen := rfl
@[simp] theorem State.endCommand_k0 (e : Option ErrorKind) (s : State) : (s.endCommand e).k0 = s.k0 := rfl
@[simp] theorem State.endCommand_k1 (e : Option ErrorKind) (s : State) : (s.endCommand e).k1 = s.k1 := rfl
@[simp] theorem State.endCommand_k2 (e : Option ErrorKind) (s : State) : (s.endCommand e).k2 = s.k2 := rfl
@[simp] theorem State.endCommand_k3 (e : Option ErrorKind) (s : State) : (s.endCommand e).k3 = s.k3 := rfl
@[simp] theorem State.endCommand_v0 (e : Option ErrorKind) (s : State) : (s.endCommand e).v0 = s.v0 := rfl
@[simp] theorem State.endCommand_v1 (e : Option ErrorKind) (s : State) : (s.endCommand e).v1 = s.v1 := rfl
@[simp] theorem State.endCommand_src (e : Option ErrorKind) (s : State) : (s.endCommand e).src = s.src := rfl
@[simp] theorem State.endCommand_dst (e : Option ErrorKind) (s : State) : (s.endCommand e).dst = s.dst := rfl
@[simp] theorem State.endCommand_len (e : Option ErrorKind) (s : State) : (s.endCommand e).len = s.len := rfl
@[simp] theorem State.endCommand_outlen (e : Option ErrorKind) (s : State) : (s.endCommand e).outlen = s.outlen := rfl
@[simp] theorem State.endCommand_pend (e : Option ErrorKind) (s : State) : (s.endCommand e).pend = s.pend := rfl
@[simp] theorem State.endCommand_sum (e : Option ErrorKind) (s : State) : (s.endCommand e).sum = s.sum := rfl
@[simp] theorem State.endCommand_round (e : Option ErrorKind) (s : State) : (s.endCommand e).round = s.round := rfl
@[simp] theorem State.endCommand_blk (e : Option ErrorKind) (s : State) : (s.endCommand e).blk = s.blk := rfl
@[simp] theorem State.endCommand_mem (e : Option ErrorKind) (s : State) : (s.endCommand e).mem = s.mem := rfl
@[simp] theorem State.endCommand_memTop (e : Option ErrorKind) (s : State) : (s.endCommand e).memTop = s.memTop := rfl
@[simp] theorem State.endCommand_regBase (e : Option ErrorKind) (s : State) : (s.endCommand e).regBase = s.regBase := rfl
@[simp] theorem State.endCommand_turns (e : Option ErrorKind) (s : State) : (s.endCommand e).turns = s.turns := rfl
@[simp] theorem State.endCommand_responses (e : Option ErrorKind) (s : State) : (s.endCommand e).responses = s.responses := rfl
@[simp] theorem State.endCommand_draws (e : Option ErrorKind) (s : State) : (s.endCommand e).draws = s.draws := rfl
@[simp] theorem State.endCommand_duty (e : Option ErrorKind) (s : State) : (s.endCommand e).duty = s.duty := rfl

/-! Releasing the hidden registers writes those and the count of draws. -/

@[simp] theorem State.releaseHidden_status (s : State) : s.releaseHidden.status = s.status := rfl
@[simp] theorem State.releaseHidden_keylen (s : State) : s.releaseHidden.keylen = s.keylen := rfl
@[simp] theorem State.releaseHidden_k0 (s : State) : s.releaseHidden.k0 = s.k0 := rfl
@[simp] theorem State.releaseHidden_k1 (s : State) : s.releaseHidden.k1 = s.k1 := rfl
@[simp] theorem State.releaseHidden_k2 (s : State) : s.releaseHidden.k2 = s.k2 := rfl
@[simp] theorem State.releaseHidden_k3 (s : State) : s.releaseHidden.k3 = s.k3 := rfl
@[simp] theorem State.releaseHidden_v0 (s : State) : s.releaseHidden.v0 = s.v0 := rfl
@[simp] theorem State.releaseHidden_v1 (s : State) : s.releaseHidden.v1 = s.v1 := rfl
@[simp] theorem State.releaseHidden_src (s : State) : s.releaseHidden.src = s.src := rfl
@[simp] theorem State.releaseHidden_dst (s : State) : s.releaseHidden.dst = s.dst := rfl
@[simp] theorem State.releaseHidden_len (s : State) : s.releaseHidden.len = s.len := rfl
@[simp] theorem State.releaseHidden_outlen (s : State) : s.releaseHidden.outlen = s.outlen := rfl
@[simp] theorem State.releaseHidden_pend (s : State) : s.releaseHidden.pend = s.pend := rfl
@[simp] theorem State.releaseHidden_sum (s : State) : s.releaseHidden.sum = Config.freeWord s.draws := rfl
@[simp] theorem State.releaseHidden_round (s : State) : s.releaseHidden.round = (Config.freeWord (s.draws + 1)).setWidth 6 := rfl
@[simp] theorem State.releaseHidden_blk (s : State) : s.releaseHidden.blk = (Config.freeWord (s.draws + 2)).setWidth 30 := rfl
@[simp] theorem State.releaseHidden_mem (s : State) : s.releaseHidden.mem = s.mem := rfl
@[simp] theorem State.releaseHidden_memTop (s : State) : s.releaseHidden.memTop = s.memTop := rfl
@[simp] theorem State.releaseHidden_regBase (s : State) : s.releaseHidden.regBase = s.regBase := rfl
@[simp] theorem State.releaseHidden_turns (s : State) : s.releaseHidden.turns = s.turns := rfl
@[simp] theorem State.releaseHidden_responses (s : State) : s.releaseHidden.responses = s.responses := rfl
@[simp] theorem State.releaseHidden_draws (s : State) : s.releaseHidden.draws = s.draws + 3 := rfl
@[simp] theorem State.releaseHidden_duty (s : State) : s.releaseHidden.duty = s.duty := rfl

/-! Storing a block writes V0 and V1. -/

@[simp] theorem State.setBlock_status (b : Block) (s : State) : (s.setBlock b).status = s.status := rfl
@[simp] theorem State.setBlock_keylen (b : Block) (s : State) : (s.setBlock b).keylen = s.keylen := rfl
@[simp] theorem State.setBlock_k0 (b : Block) (s : State) : (s.setBlock b).k0 = s.k0 := rfl
@[simp] theorem State.setBlock_k1 (b : Block) (s : State) : (s.setBlock b).k1 = s.k1 := rfl
@[simp] theorem State.setBlock_k2 (b : Block) (s : State) : (s.setBlock b).k2 = s.k2 := rfl
@[simp] theorem State.setBlock_k3 (b : Block) (s : State) : (s.setBlock b).k3 = s.k3 := rfl
@[simp] theorem State.setBlock_v0 (b : Block) (s : State) : (s.setBlock b).v0 = b.v0 := rfl
@[simp] theorem State.setBlock_v1 (b : Block) (s : State) : (s.setBlock b).v1 = b.v1 := rfl
@[simp] theorem State.setBlock_src (b : Block) (s : State) : (s.setBlock b).src = s.src := rfl
@[simp] theorem State.setBlock_dst (b : Block) (s : State) : (s.setBlock b).dst = s.dst := rfl
@[simp] theorem State.setBlock_len (b : Block) (s : State) : (s.setBlock b).len = s.len := rfl
@[simp] theorem State.setBlock_outlen (b : Block) (s : State) : (s.setBlock b).outlen = s.outlen := rfl
@[simp] theorem State.setBlock_pend (b : Block) (s : State) : (s.setBlock b).pend = s.pend := rfl
@[simp] theorem State.setBlock_sum (b : Block) (s : State) : (s.setBlock b).sum = s.sum := rfl
@[simp] theorem State.setBlock_round (b : Block) (s : State) : (s.setBlock b).round = s.round := rfl
@[simp] theorem State.setBlock_blk (b : Block) (s : State) : (s.setBlock b).blk = s.blk := rfl
@[simp] theorem State.setBlock_mem (b : Block) (s : State) : (s.setBlock b).mem = s.mem := rfl
@[simp] theorem State.setBlock_memTop (b : Block) (s : State) : (s.setBlock b).memTop = s.memTop := rfl
@[simp] theorem State.setBlock_regBase (b : Block) (s : State) : (s.setBlock b).regBase = s.regBase := rfl
@[simp] theorem State.setBlock_turns (b : Block) (s : State) : (s.setBlock b).turns = s.turns := rfl
@[simp] theorem State.setBlock_responses (b : Block) (s : State) : (s.setBlock b).responses = s.responses := rfl
@[simp] theorem State.setBlock_draws (b : Block) (s : State) : (s.setBlock b).draws = s.draws := rfl
@[simp] theorem State.setBlock_duty (b : Block) (s : State) : (s.setBlock b).duty = s.duty := rfl

/-! Storing a buffer's results writes data memory and OUTLEN. -/

@[simp] theorem State.setBuffer_status (m : Memory) (n : Nat) (s : State) : (s.setBuffer m n).status = s.status := rfl
@[simp] theorem State.setBuffer_keylen (m : Memory) (n : Nat) (s : State) : (s.setBuffer m n).keylen = s.keylen := rfl
@[simp] theorem State.setBuffer_k0 (m : Memory) (n : Nat) (s : State) : (s.setBuffer m n).k0 = s.k0 := rfl
@[simp] theorem State.setBuffer_k1 (m : Memory) (n : Nat) (s : State) : (s.setBuffer m n).k1 = s.k1 := rfl
@[simp] theorem State.setBuffer_k2 (m : Memory) (n : Nat) (s : State) : (s.setBuffer m n).k2 = s.k2 := rfl
@[simp] theorem State.setBuffer_k3 (m : Memory) (n : Nat) (s : State) : (s.setBuffer m n).k3 = s.k3 := rfl
@[simp] theorem State.setBuffer_v0 (m : Memory) (n : Nat) (s : State) : (s.setBuffer m n).v0 = s.v0 := rfl
@[simp] theorem State.setBuffer_v1 (m : Memory) (n : Nat) (s : State) : (s.setBuffer m n).v1 = s.v1 := rfl
@[simp] theorem State.setBuffer_src (m : Memory) (n : Nat) (s : State) : (s.setBuffer m n).src = s.src := rfl
@[simp] theorem State.setBuffer_dst (m : Memory) (n : Nat) (s : State) : (s.setBuffer m n).dst = s.dst := rfl
@[simp] theorem State.setBuffer_len (m : Memory) (n : Nat) (s : State) : (s.setBuffer m n).len = s.len := rfl
@[simp] theorem State.setBuffer_outlen (m : Memory) (n : Nat) (s : State) : (s.setBuffer m n).outlen = BitVec.ofNat 32 n := rfl
@[simp] theorem State.setBuffer_pend (m : Memory) (n : Nat) (s : State) : (s.setBuffer m n).pend = s.pend := rfl
@[simp] theorem State.setBuffer_sum (m : Memory) (n : Nat) (s : State) : (s.setBuffer m n).sum = s.sum := rfl
@[simp] theorem State.setBuffer_round (m : Memory) (n : Nat) (s : State) : (s.setBuffer m n).round = s.round := rfl
@[simp] theorem State.setBuffer_blk (m : Memory) (n : Nat) (s : State) : (s.setBuffer m n).blk = s.blk := rfl
@[simp] theorem State.setBuffer_mem (m : Memory) (n : Nat) (s : State) : (s.setBuffer m n).mem = m := rfl
@[simp] theorem State.setBuffer_memTop (m : Memory) (n : Nat) (s : State) : (s.setBuffer m n).memTop = s.memTop := rfl
@[simp] theorem State.setBuffer_regBase (m : Memory) (n : Nat) (s : State) : (s.setBuffer m n).regBase = s.regBase := rfl
@[simp] theorem State.setBuffer_turns (m : Memory) (n : Nat) (s : State) : (s.setBuffer m n).turns = s.turns := rfl
@[simp] theorem State.setBuffer_responses (m : Memory) (n : Nat) (s : State) : (s.setBuffer m n).responses = s.responses := rfl
@[simp] theorem State.setBuffer_draws (m : Memory) (n : Nat) (s : State) : (s.setBuffer m n).draws = s.draws := rfl
@[simp] theorem State.setBuffer_duty (m : Memory) (n : Nat) (s : State) : (s.setBuffer m n).duty = s.duty := rfl

/-! Reset writes the registers of R27 and ends the duty. -/

@[simp] theorem State.clearRegisters_status (s : State) : s.clearRegisters.status = 0#32 := rfl
@[simp] theorem State.clearRegisters_keylen (s : State) : s.clearRegisters.keylen = 0#32 := rfl
@[simp] theorem State.clearRegisters_k0 (s : State) : s.clearRegisters.k0 = 0#32 := rfl
@[simp] theorem State.clearRegisters_k1 (s : State) : s.clearRegisters.k1 = 0#32 := rfl
@[simp] theorem State.clearRegisters_k2 (s : State) : s.clearRegisters.k2 = 0#32 := rfl
@[simp] theorem State.clearRegisters_k3 (s : State) : s.clearRegisters.k3 = 0#32 := rfl
@[simp] theorem State.clearRegisters_v0 (s : State) : s.clearRegisters.v0 = 0#32 := rfl
@[simp] theorem State.clearRegisters_v1 (s : State) : s.clearRegisters.v1 = 0#32 := rfl
@[simp] theorem State.clearRegisters_src (s : State) : s.clearRegisters.src = 0#32 := rfl
@[simp] theorem State.clearRegisters_dst (s : State) : s.clearRegisters.dst = 0#32 := rfl
@[simp] theorem State.clearRegisters_len (s : State) : s.clearRegisters.len = 0#32 := rfl
@[simp] theorem State.clearRegisters_outlen (s : State) : s.clearRegisters.outlen = 0#32 := rfl
@[simp] theorem State.clearRegisters_pend (s : State) : s.clearRegisters.pend = 0#32 := rfl
@[simp] theorem State.clearRegisters_sum (s : State) : s.clearRegisters.sum = s.sum := rfl
@[simp] theorem State.clearRegisters_round (s : State) : s.clearRegisters.round = s.round := rfl
@[simp] theorem State.clearRegisters_blk (s : State) : s.clearRegisters.blk = s.blk := rfl
@[simp] theorem State.clearRegisters_mem (s : State) : s.clearRegisters.mem = s.mem := rfl
@[simp] theorem State.clearRegisters_memTop (s : State) : s.clearRegisters.memTop = s.memTop := rfl
@[simp] theorem State.clearRegisters_regBase (s : State) : s.clearRegisters.regBase = s.regBase := rfl
@[simp] theorem State.clearRegisters_turns (s : State) : s.clearRegisters.turns = s.turns := rfl
@[simp] theorem State.clearRegisters_responses (s : State) : s.clearRegisters.responses = s.responses := rfl
@[simp] theorem State.clearRegisters_draws (s : State) : s.clearRegisters.draws = s.draws := rfl
@[simp] theorem State.clearRegisters_duty (s : State) : s.clearRegisters.duty = [] := rfl

/-! The two ends of a command are one update. -/

@[simp] theorem State.complete_eq (s : State) : s.complete = s.endCommand none := rfl
@[simp] theorem State.raise_eq (e : ErrorKind) (s : State) : s.raise e = s.endCommand (some e) := rfl

/-! A read changes the host's side only (R37). -/

@[simp] theorem State.hostRead_status (slot : Slot) (s : State) : (s.hostRead slot).status = s.status := by
  unfold State.hostRead; split <;> rfl
@[simp] theorem State.hostRead_keylen (slot : Slot) (s : State) : (s.hostRead slot).keylen = s.keylen := by
  unfold State.hostRead; split <;> rfl
@[simp] theorem State.hostRead_k0 (slot : Slot) (s : State) : (s.hostRead slot).k0 = s.k0 := by
  unfold State.hostRead; split <;> rfl
@[simp] theorem State.hostRead_k1 (slot : Slot) (s : State) : (s.hostRead slot).k1 = s.k1 := by
  unfold State.hostRead; split <;> rfl
@[simp] theorem State.hostRead_k2 (slot : Slot) (s : State) : (s.hostRead slot).k2 = s.k2 := by
  unfold State.hostRead; split <;> rfl
@[simp] theorem State.hostRead_k3 (slot : Slot) (s : State) : (s.hostRead slot).k3 = s.k3 := by
  unfold State.hostRead; split <;> rfl
@[simp] theorem State.hostRead_v0 (slot : Slot) (s : State) : (s.hostRead slot).v0 = s.v0 := by
  unfold State.hostRead; split <;> rfl
@[simp] theorem State.hostRead_v1 (slot : Slot) (s : State) : (s.hostRead slot).v1 = s.v1 := by
  unfold State.hostRead; split <;> rfl
@[simp] theorem State.hostRead_src (slot : Slot) (s : State) : (s.hostRead slot).src = s.src := by
  unfold State.hostRead; split <;> rfl
@[simp] theorem State.hostRead_dst (slot : Slot) (s : State) : (s.hostRead slot).dst = s.dst := by
  unfold State.hostRead; split <;> rfl
@[simp] theorem State.hostRead_len (slot : Slot) (s : State) : (s.hostRead slot).len = s.len := by
  unfold State.hostRead; split <;> rfl
@[simp] theorem State.hostRead_outlen (slot : Slot) (s : State) : (s.hostRead slot).outlen = s.outlen := by
  unfold State.hostRead; split <;> rfl
@[simp] theorem State.hostRead_pend (slot : Slot) (s : State) : (s.hostRead slot).pend = s.pend := by
  unfold State.hostRead; split <;> rfl
@[simp] theorem State.hostRead_sum (slot : Slot) (s : State) : (s.hostRead slot).sum = s.sum := by
  unfold State.hostRead; split <;> rfl
@[simp] theorem State.hostRead_round (slot : Slot) (s : State) : (s.hostRead slot).round = s.round := by
  unfold State.hostRead; split <;> rfl
@[simp] theorem State.hostRead_blk (slot : Slot) (s : State) : (s.hostRead slot).blk = s.blk := by
  unfold State.hostRead; split <;> rfl
@[simp] theorem State.hostRead_mem (slot : Slot) (s : State) : (s.hostRead slot).mem = s.mem := by
  unfold State.hostRead; split <;> rfl
@[simp] theorem State.hostRead_memTop (slot : Slot) (s : State) : (s.hostRead slot).memTop = s.memTop := by
  unfold State.hostRead; split <;> rfl
@[simp] theorem State.hostRead_regBase (slot : Slot) (s : State) : (s.hostRead slot).regBase = s.regBase := by
  unfold State.hostRead; split <;> rfl
@[simp] theorem State.hostRead_turns (slot : Slot) (s : State) : (s.hostRead slot).turns = s.turns := by
  unfold State.hostRead; split <;> rfl

/-! Abandoning a command touches data memory and the count of draws only (R92). -/

@[simp] theorem State.dropCommand_status (s : State) : s.dropCommand.status = s.status := by
  unfold State.dropCommand; split <;> rfl
@[simp] theorem State.dropCommand_keylen (s : State) : s.dropCommand.keylen = s.keylen := by
  unfold State.dropCommand; split <;> rfl
@[simp] theorem State.dropCommand_k0 (s : State) : s.dropCommand.k0 = s.k0 := by
  unfold State.dropCommand; split <;> rfl
@[simp] theorem State.dropCommand_k1 (s : State) : s.dropCommand.k1 = s.k1 := by
  unfold State.dropCommand; split <;> rfl
@[simp] theorem State.dropCommand_k2 (s : State) : s.dropCommand.k2 = s.k2 := by
  unfold State.dropCommand; split <;> rfl
@[simp] theorem State.dropCommand_k3 (s : State) : s.dropCommand.k3 = s.k3 := by
  unfold State.dropCommand; split <;> rfl
@[simp] theorem State.dropCommand_v0 (s : State) : s.dropCommand.v0 = s.v0 := by
  unfold State.dropCommand; split <;> rfl
@[simp] theorem State.dropCommand_v1 (s : State) : s.dropCommand.v1 = s.v1 := by
  unfold State.dropCommand; split <;> rfl
@[simp] theorem State.dropCommand_src (s : State) : s.dropCommand.src = s.src := by
  unfold State.dropCommand; split <;> rfl
@[simp] theorem State.dropCommand_dst (s : State) : s.dropCommand.dst = s.dst := by
  unfold State.dropCommand; split <;> rfl
@[simp] theorem State.dropCommand_len (s : State) : s.dropCommand.len = s.len := by
  unfold State.dropCommand; split <;> rfl
@[simp] theorem State.dropCommand_outlen (s : State) : s.dropCommand.outlen = s.outlen := by
  unfold State.dropCommand; split <;> rfl
@[simp] theorem State.dropCommand_pend (s : State) : s.dropCommand.pend = s.pend := by
  unfold State.dropCommand; split <;> rfl
@[simp] theorem State.dropCommand_sum (s : State) : s.dropCommand.sum = s.sum := by
  unfold State.dropCommand; split <;> rfl
@[simp] theorem State.dropCommand_round (s : State) : s.dropCommand.round = s.round := by
  unfold State.dropCommand; split <;> rfl
@[simp] theorem State.dropCommand_blk (s : State) : s.dropCommand.blk = s.blk := by
  unfold State.dropCommand; split <;> rfl
@[simp] theorem State.dropCommand_memTop (s : State) : s.dropCommand.memTop = s.memTop := by
  unfold State.dropCommand; split <;> rfl
@[simp] theorem State.dropCommand_regBase (s : State) : s.dropCommand.regBase = s.regBase := by
  unfold State.dropCommand; split <;> rfl
@[simp] theorem State.dropCommand_turns (s : State) : s.dropCommand.turns = s.turns := by
  unfold State.dropCommand; split <;> rfl
@[simp] theorem State.dropCommand_responses (s : State) : s.dropCommand.responses = s.responses := by
  unfold State.dropCommand; split <;> rfl
@[simp] theorem State.dropCommand_duty (s : State) : s.dropCommand.duty = s.duty := by
  unfold State.dropCommand; split <;> rfl

/-! Placing a command for the next step is its acceptance, but for the turns. -/

@[simp] theorem State.acceptNow_status (c : Word) (s : State) : (s.acceptNow c).status = (s.accept c).status := rfl
@[simp] theorem State.acceptNow_keylen (c : Word) (s : State) : (s.acceptNow c).keylen = (s.accept c).keylen := rfl
@[simp] theorem State.acceptNow_k0 (c : Word) (s : State) : (s.acceptNow c).k0 = (s.accept c).k0 := rfl
@[simp] theorem State.acceptNow_k1 (c : Word) (s : State) : (s.acceptNow c).k1 = (s.accept c).k1 := rfl
@[simp] theorem State.acceptNow_k2 (c : Word) (s : State) : (s.acceptNow c).k2 = (s.accept c).k2 := rfl
@[simp] theorem State.acceptNow_k3 (c : Word) (s : State) : (s.acceptNow c).k3 = (s.accept c).k3 := rfl
@[simp] theorem State.acceptNow_v0 (c : Word) (s : State) : (s.acceptNow c).v0 = (s.accept c).v0 := rfl
@[simp] theorem State.acceptNow_v1 (c : Word) (s : State) : (s.acceptNow c).v1 = (s.accept c).v1 := rfl
@[simp] theorem State.acceptNow_src (c : Word) (s : State) : (s.acceptNow c).src = (s.accept c).src := rfl
@[simp] theorem State.acceptNow_dst (c : Word) (s : State) : (s.acceptNow c).dst = (s.accept c).dst := rfl
@[simp] theorem State.acceptNow_len (c : Word) (s : State) : (s.acceptNow c).len = (s.accept c).len := rfl
@[simp] theorem State.acceptNow_outlen (c : Word) (s : State) : (s.acceptNow c).outlen = (s.accept c).outlen := rfl
@[simp] theorem State.acceptNow_pend (c : Word) (s : State) : (s.acceptNow c).pend = (s.accept c).pend := rfl
@[simp] theorem State.acceptNow_sum (c : Word) (s : State) : (s.acceptNow c).sum = (s.accept c).sum := rfl
@[simp] theorem State.acceptNow_round (c : Word) (s : State) : (s.acceptNow c).round = (s.accept c).round := rfl
@[simp] theorem State.acceptNow_blk (c : Word) (s : State) : (s.acceptNow c).blk = (s.accept c).blk := rfl
@[simp] theorem State.acceptNow_mem (c : Word) (s : State) : (s.acceptNow c).mem = (s.accept c).mem := rfl
@[simp] theorem State.acceptNow_memTop (c : Word) (s : State) : (s.acceptNow c).memTop = (s.accept c).memTop := rfl
@[simp] theorem State.acceptNow_regBase (c : Word) (s : State) : (s.acceptNow c).regBase = (s.accept c).regBase := rfl
@[simp] theorem State.acceptNow_responses (c : Word) (s : State) : (s.acceptNow c).responses = (s.accept c).responses := rfl
@[simp] theorem State.acceptNow_draws (c : Word) (s : State) : (s.acceptNow c).draws = (s.accept c).draws := rfl
@[simp] theorem State.acceptNow_duty (c : Word) (s : State) : (s.acceptNow c).duty = (s.accept c).duty := rfl

end Sys2Proof.Machine
end

