-- ==== Sys2Proof/Laws/Flags.lean ====
section
/-! SUPPORT. What the three writes to STATUS do to its fields (10_state.md R14). -/

namespace Sys2Proof.Machine

/-! Bit `i` of STATUS after each write. -/

theorem getLsbD_statusWriteIgnored (st : Word) (i : Nat) :
    (statusWriteIgnored st).getLsbD i = (st.getLsbD i || decide (i = 2)) := by
  have h : (0x00000004#32).getLsbD i = decide (i = 2) := by
    by_cases hi : i < 32
    · interval_cases i <;> rfl
    · rw [BitVec.getLsbD_of_ge _ _ (by omega)]; simp; omega
  simp [statusWriteIgnored, h]

theorem getLsbD_statusCompleted (code : BitVec 3) (st : Word) (i : Nat) (hi : i < 32) :
    (statusCompleted code st).getLsbD i =
      if i = 0 then false else if i = 1 then true
      else if i = 4 ∨ i = 5 ∨ i = 6 then code.getLsbD (i - 4) else st.getLsbD i := by
  interval_cases i <;> simp [statusCompleted]

@[simp] theorem statusBusy_accepted : statusBusy statusAccepted = true := rfl
@[simp] theorem statusDone_accepted : statusDone statusAccepted = false := rfl
@[simp] theorem statusWign_accepted : statusWign statusAccepted = false := rfl
@[simp] theorem statusErr_accepted : statusErr statusAccepted = 0#3 := rfl

@[simp] theorem statusBusy_writeIgnored (st : Word) :
    statusBusy (statusWriteIgnored st) = statusBusy st := by
  exact (getLsbD_statusWriteIgnored st 0).trans (Bool.or_false _)

@[simp] theorem statusDone_writeIgnored (st : Word) :
    statusDone (statusWriteIgnored st) = statusDone st := by
  exact (getLsbD_statusWriteIgnored st 1).trans (Bool.or_false _)

@[simp] theorem statusWign_writeIgnored (st : Word) :
    statusWign (statusWriteIgnored st) = true := by
  exact (getLsbD_statusWriteIgnored st 2).trans (Bool.or_true _)

@[simp] theorem statusErr_writeIgnored (st : Word) :
    statusErr (statusWriteIgnored st) = statusErr st := by
  apply BitVec.eq_of_getLsbD_eq
  intro i hi
  simp [statusErr, getLsbD_statusWriteIgnored, hi]
  omega

@[simp] theorem statusBusy_completed (code : BitVec 3) (st : Word) :
    statusBusy (statusCompleted code st) = false := by
  exact getLsbD_statusCompleted code st 0 (by omega)

@[simp] theorem statusDone_completed (code : BitVec 3) (st : Word) :
    statusDone (statusCompleted code st) = true := by
  exact getLsbD_statusCompleted code st 1 (by omega)

@[simp] theorem statusWign_completed (code : BitVec 3) (st : Word) :
    statusWign (statusCompleted code st) = statusWign st := by
  exact getLsbD_statusCompleted code st 2 (by omega)

@[simp] theorem statusErr_completed (code : BitVec 3) (st : Word) :
    statusErr (statusCompleted code st) = code := by
  apply BitVec.eq_of_getLsbD_eq
  intro i hi
  rw [statusErr, BitVec.getLsbD_extractLsb', getLsbD_statusCompleted code st _ (by omega)]
  interval_cases i <;> simp

/-- The reserved bits keep their values at completion (R74, R76). -/
theorem reserved_completed (code : BitVec 3) (st : Word) (i : Nat) (h : i = 3 ∨ 7 ≤ i) :
    (statusCompleted code st).getLsbD i = st.getLsbD i := by
  by_cases hi : i < 32
  · rw [getLsbD_statusCompleted code st i hi]
    split_ifs <;> first | omega | rfl
  · rw [BitVec.getLsbD_of_ge _ _ (by omega), BitVec.getLsbD_of_ge _ _ (by omega)]

/-- The reserved bits keep their values when a write is ignored (R38). -/
theorem reserved_writeIgnored (st : Word) (i : Nat) (h : i = 3 ∨ 7 ≤ i) :
    (statusWriteIgnored st).getLsbD i = st.getLsbD i := by
  rw [getLsbD_statusWriteIgnored]
  simp
  omega

/-- No error kind has a reserved code (R77). -/
theorem endCode_le (e : Option ErrorKind) : (endCode e).toNat ≤ 5 := by
  rcases e with _ | e
  · decide
  · cases e <;> decide

@[simp] theorem toNat_endCode_none : (endCode none).toNat = 0 := rfl

@[simp] theorem State.busy_endCommand (e : Option ErrorKind) (s : State) :
    (s.endCommand e).busy = false := by
  simp [State.busy]

@[simp] theorem State.done_endCommand (e : Option ErrorKind) (s : State) :
    (s.endCommand e).done = true := by
  simp [State.done]

@[simp] theorem State.busy_accept (v : Word) (s : State) : (s.accept v).busy = true := by
  simp [State.busy]

end Sys2Proof.Machine
end

