-- ==== Sys2Proof/Laws/Memory.lean ====
section
/-! SUPPORT. Data memory (20_memory.md R28 to R30): a read after a write, the writes of several
bytes, and that every operation keeps the canonical form and the addresses in range. -/

namespace Sys2Proof.Machine

/-! ### One byte -/

theorem Memory.written?_write (m : Memory) (a : Nat) (b : Byte) (x : Nat) :
    Memory.written? (Memory.write m a b) x = if x = a then some b else Memory.written? m x := by
  induction m with
  | nil => simp [Memory.write, Memory.written?]
  | cons c m ih =>
    obtain ⟨k, y⟩ := c
    simp only [Memory.write]
    split
    · simp [Memory.written?]
    · split
      · subst_vars
        simp only [Memory.written?]
        split <;> rfl
      · simp only [Memory.written?, ih]
        split <;> split <;> first | rfl | omega

theorem Memory.read_write (m : Memory) (a : Nat) (b : Byte) (x : Nat) :
    Memory.read (Memory.write m a b) x = if x = a then b else Memory.read m x := by
  simp only [Memory.read, Memory.written?_write]
  split <;> rfl

@[simp] theorem Memory.read_write_same (m : Memory) (a : Nat) (b : Byte) :
    Memory.read (Memory.write m a b) a = b := by
  simp [Memory.read_write]

theorem Memory.read_write_other (m : Memory) (a : Nat) (b : Byte) (x : Nat) (h : x ≠ a) :
    Memory.read (Memory.write m a b) x = Memory.read m x := by
  simp [Memory.read_write, h]

/-! ### Several bytes -/

theorem Memory.read_writeBytes (m : Memory) (a : Nat) (bs : List Byte) (x : Nat) :
    Memory.read (Memory.writeBytes m a bs) x =
      if a ≤ x then (bs[x - a]?).getD (Memory.read m x) else Memory.read m x := by
  induction bs generalizing m a with
  | nil => simp [Memory.writeBytes]
  | cons b bs ih =>
    rw [Memory.writeBytes, ih, Memory.read_write]
    by_cases h1 : a + 1 ≤ x
    · obtain ⟨d, rfl⟩ : ∃ d, x = a + 1 + d := ⟨x - (a + 1), by omega⟩
      have e1 : a + 1 + d - (a + 1) = d := by omega
      have e2 : a + 1 + d - a = d + 1 := by omega
      have h3 : a ≤ a + 1 + d := by omega
      have h4 : a + 1 + d ≠ a := by omega
      rw [if_pos h1, if_pos h3, e1, e2, if_neg h4, List.getElem?_cons_succ]
    · rw [if_neg h1]
      by_cases h2 : x = a
      · subst h2; simp
      · have h3 : ¬ a ≤ x := by omega
        rw [if_neg h2, if_neg h3]

/-- Bytes outside the written range are left alone. -/
theorem Memory.read_writeBytes_outside (m : Memory) (a : Nat) (bs : List Byte) (x : Nat)
    (h : x < a ∨ a + bs.length ≤ x) :
    Memory.read (Memory.writeBytes m a bs) x = Memory.read m x := by
  rw [Memory.read_writeBytes]
  split
  · rw [List.getElem?_eq_none (by omega)]; rfl
  · rfl

/-- Byte `j` of the written range is the `j`-th byte. -/
theorem Memory.read_writeBytes_inside (m : Memory) (a : Nat) (bs : List Byte) (j : Nat)
    (h : j < bs.length) :
    Memory.read (Memory.writeBytes m a bs) (a + j) = bs[j] := by
  rw [Memory.read_writeBytes, if_pos (by omega)]
  have e : a + j - a = j := by omega
  rw [e, List.getElem?_eq_getElem h]; rfl

/-- Bytes outside the drawn range are left alone (R92). -/
theorem Memory.read_drawBytes_outside (m : Memory) (a n d x : Nat) (h : x < a ∨ a + n ≤ x) :
    Memory.read (Memory.drawBytes m a n d) x = Memory.read m x := by
  induction n generalizing m a d with
  | zero => rfl
  | succ n ih =>
    rw [Memory.drawBytes, ih _ _ _ (by omega), Memory.read_write_other _ _ _ _ (by omega)]

/-! ### The canonical form -/

/-- The canonical form, entry by entry. -/
theorem Memory.wf_cons (c : Host.Cell) (m : Memory) :
    Memory.wf (c :: m) = true ↔ (∀ d ∈ m.head?, c.1 < d.1) ∧ Memory.wf m = true := by
  obtain ⟨k, x⟩ := c
  cases m with
  | nil => simp [Memory.wf]
  | cons d m => obtain ⟨k', x'⟩ := d; simp [Memory.wf]

/-- The first address after a write is the written one or the first there was. -/
theorem Memory.head?_write (m : Memory) (a : Nat) (b : Byte) (d : Host.Cell)
    (h : d ∈ (Memory.write m a b).head?) : d.1 = a ∨ d ∈ m.head? := by
  cases m with
  | nil => simp [Memory.write] at h; left; rw [← h]
  | cons c m =>
    obtain ⟨k, x⟩ := c
    simp only [Memory.write] at h
    split at h
    · simp at h; left; rw [← h]
    · split at h
      · simp at h; left; rw [← h]
      · right; simpa using h

/-- A write keeps the canonical form. -/
theorem Memory.wf_write (m : Memory) (a : Nat) (b : Byte) (h : Memory.wf m = true) :
    Memory.wf (Memory.write m a b) = true := by
  induction m with
  | nil => rfl
  | cons c m ih =>
    obtain ⟨k, x⟩ := c
    obtain ⟨hk, hm⟩ := (Memory.wf_cons (k, x) m).1 h
    simp only [Memory.write]
    split
    · rename_i hlt
      exact (Memory.wf_cons _ _).2 ⟨by simpa using hlt, h⟩
    · split
      · rename_i heq
        subst heq
        exact (Memory.wf_cons _ _).2 ⟨hk, hm⟩
      · refine (Memory.wf_cons _ _).2 ⟨fun d hd => ?_, ih hm⟩
        rcases Memory.head?_write m a b d hd with h1 | h1
        · simp only at *; omega
        · exact hk d h1

theorem Memory.wf_writeBytes (m : Memory) (a : Nat) (bs : List Byte) (h : Memory.wf m = true) :
    Memory.wf (Memory.writeBytes m a bs) = true := by
  induction bs generalizing m a with
  | nil => exact h
  | cons b bs ih => exact ih _ _ (Memory.wf_write m a b h)

theorem Memory.wf_drawBytes (m : Memory) (a n d : Nat) (h : Memory.wf m = true) :
    Memory.wf (Memory.drawBytes m a n d) = true := by
  induction n generalizing m a d with
  | zero => exact h
  | succ n ih => exact ih _ _ _ (Memory.wf_write m a _ h)

theorem Memory.wf_reset : Memory.wf State.reset.mem = true := rfl

/-! ### The addresses listed -/

/-- A write lists the written address and no other new one. -/
theorem Memory.mem_write (m : Memory) (a : Nat) (b : Byte) (c : Host.Cell)
    (h : c ∈ Memory.write m a b) : c.1 = a ∨ c ∈ m := by
  induction m with
  | nil => simp [Memory.write] at h; left; rw [h]
  | cons d m ih =>
    obtain ⟨k, x⟩ := d
    simp only [Memory.write] at h
    split at h
    · rcases List.mem_cons.1 h with rfl | h
      · exact .inl rfl
      · exact .inr h
    · split at h
      · rcases List.mem_cons.1 h with rfl | h
        · exact .inl rfl
        · exact .inr (List.mem_cons_of_mem _ h)
      · rcases List.mem_cons.1 h with rfl | h
        · exact .inr (by simp)
        · rcases ih h with h | h
          · exact .inl h
          · exact .inr (List.mem_cons_of_mem _ h)

theorem Memory.below_writeBytes (m : Memory) (a : Nat) (bs : List Byte) (n : Nat)
    (hm : ∀ c ∈ m, c.1 < n) (h : a + bs.length ≤ n) :
    ∀ c ∈ Memory.writeBytes m a bs, c.1 < n := by
  induction bs generalizing m a with
  | nil => exact hm
  | cons b bs ih =>
    simp only [List.length_cons] at h
    refine ih _ _ (fun c hc => ?_) (by omega)
    rcases Memory.mem_write m a b c hc with h1 | h1
    · omega
    · exact hm c h1

theorem Memory.below_drawBytes (m : Memory) (a k d n : Nat) (hm : ∀ c ∈ m, c.1 < n)
    (h : a + k ≤ n) : ∀ c ∈ Memory.drawBytes m a k d, c.1 < n := by
  induction k generalizing m a d with
  | zero => exact hm
  | succ k ih =>
    refine ih _ _ _ (fun c hc => ?_) (by omega)
    rcases Memory.mem_write m a _ c hc with h1 | h1
    · omega
    · exact hm c h1

/-! ### Reading a range -/

theorem Memory.length_readBytes (m : Memory) (a n : Nat) :
    (Memory.readBytes m a n).length = n := by
  induction n generalizing a with
  | zero => rfl
  | succ n ih => simp [Memory.readBytes, ih]

theorem Memory.getElem_readBytes (m : Memory) (a n j : Nat)
    (h : j < (Memory.readBytes m a n).length) :
    (Memory.readBytes m a n)[j] = Memory.read m (a + j) := by
  induction n generalizing a j with
  | zero => simp [Memory.readBytes] at h
  | succ n ih =>
    cases j with
    | zero => simp [Memory.readBytes]
    | succ j =>
      simp only [Memory.readBytes, List.getElem_cons_succ]
      rw [ih]
      congr 1
      omega

end Sys2Proof.Machine
end

