-- ==== Sys2Proof/Laws/Commands.lean ====
section
/-! SUPPORT. What the commands and the other actions can do, said once for each shared operation
(60_exceptions.md R71 to R76, 20_memory.md R35 to R38, 70_reset_and_hazards.md R92). -/

namespace Sys2Proof.Machine

/-! ### Running a command -/

/-- A command's engine step: an error that writes STATUS, or the effect and completion (R72). -/
theorem runCommand_cases (i : Instr) (f : State → State) (s : State) :
    (∃ e, validateInstr i s = some e ∧ runCommand i f s = .next (s.endCommand (some e))) ∨
    (validateInstr i s = none ∧
      runCommand i f s = .next ((f s).releaseHidden.endCommand none)) := by
  unfold runCommand
  cases h : validateInstr i s with
  | some e => exact .inl ⟨e, rfl, rfl⟩
  | none => exact .inr ⟨rfl, rfl⟩

/-- The effect of each command on the registers and memory it writes (R21). -/
def commandEffect : Instr → State → State
  | .encBlock, s => s.setBlock (encryptBlock s.key s.block)
  | .decBlock, s => s.setBlock (decryptBlock s.key s.block)
  | .encBuf, s => codecEffect .encBuf encryptBlock s
  | .decBuf, s => codecEffect .decBuf decryptBlock s

/-- Every command is its effect, run as every command is. -/
theorem exec_eq_runCommand (i : Instr) (s : State) :
    exec i s = runCommand i (commandEffect i) s := by
  cases i <;> rfl

/-- What a command can do (R72, R75). -/
theorem exec_cases (i : Instr) (s : State) :
    (∃ e, validateInstr i s = some e ∧ exec i s = .next (s.endCommand (some e))) ∨
    (validateInstr i s = none ∧
      exec i s = .next ((commandEffect i s).releaseHidden.endCommand none)) := by
  rw [exec_eq_runCommand]
  exact runCommand_cases i _ s

/-- A command that passes validation has its effect and completes (R72, R74). -/
theorem exec_valid (i : Instr) (s : State) (h : validateInstr i s = none) :
    exec i s = .next ((commandEffect i s).releaseHidden.endCommand none) := by
  rw [exec_eq_runCommand, runCommand, h]
  rfl

/-- A command that fails a check writes STATUS and nothing else (R75, R76). -/
theorem exec_error (i : Instr) (s : State) (e : ErrorKind) (h : validateInstr i s = some e) :
    exec i s = .next (s.endCommand (some e)) := by
  rw [exec_eq_runCommand, runCommand, h]
  rfl

/-! No command's effect touches another register or parameter (R21). -/

@[simp] theorem commandEffect_status (i : Instr) (s : State) : (commandEffect i s).status = s.status := by
  cases i <;> simp only [commandEffect, codecEffect, State.setBlock_status, State.setBuffer_status]
@[simp] theorem commandEffect_keylen (i : Instr) (s : State) : (commandEffect i s).keylen = s.keylen := by
  cases i <;> simp only [commandEffect, codecEffect, State.setBlock_keylen, State.setBuffer_keylen]
@[simp] theorem commandEffect_k0 (i : Instr) (s : State) : (commandEffect i s).k0 = s.k0 := by
  cases i <;> simp only [commandEffect, codecEffect, State.setBlock_k0, State.setBuffer_k0]
@[simp] theorem commandEffect_k1 (i : Instr) (s : State) : (commandEffect i s).k1 = s.k1 := by
  cases i <;> simp only [commandEffect, codecEffect, State.setBlock_k1, State.setBuffer_k1]
@[simp] theorem commandEffect_k2 (i : Instr) (s : State) : (commandEffect i s).k2 = s.k2 := by
  cases i <;> simp only [commandEffect, codecEffect, State.setBlock_k2, State.setBuffer_k2]
@[simp] theorem commandEffect_k3 (i : Instr) (s : State) : (commandEffect i s).k3 = s.k3 := by
  cases i <;> simp only [commandEffect, codecEffect, State.setBlock_k3, State.setBuffer_k3]
@[simp] theorem commandEffect_src (i : Instr) (s : State) : (commandEffect i s).src = s.src := by
  cases i <;> simp only [commandEffect, codecEffect, State.setBlock_src, State.setBuffer_src]
@[simp] theorem commandEffect_dst (i : Instr) (s : State) : (commandEffect i s).dst = s.dst := by
  cases i <;> simp only [commandEffect, codecEffect, State.setBlock_dst, State.setBuffer_dst]
@[simp] theorem commandEffect_len (i : Instr) (s : State) : (commandEffect i s).len = s.len := by
  cases i <;> simp only [commandEffect, codecEffect, State.setBlock_len, State.setBuffer_len]
@[simp] theorem commandEffect_pend (i : Instr) (s : State) : (commandEffect i s).pend = s.pend := by
  cases i <;> simp only [commandEffect, codecEffect, State.setBlock_pend, State.setBuffer_pend]
@[simp] theorem commandEffect_sum (i : Instr) (s : State) : (commandEffect i s).sum = s.sum := by
  cases i <;> simp only [commandEffect, codecEffect, State.setBlock_sum, State.setBuffer_sum]
@[simp] theorem commandEffect_round (i : Instr) (s : State) : (commandEffect i s).round = s.round := by
  cases i <;> simp only [commandEffect, codecEffect, State.setBlock_round, State.setBuffer_round]
@[simp] theorem commandEffect_blk (i : Instr) (s : State) : (commandEffect i s).blk = s.blk := by
  cases i <;> simp only [commandEffect, codecEffect, State.setBlock_blk, State.setBuffer_blk]
@[simp] theorem commandEffect_memTop (i : Instr) (s : State) : (commandEffect i s).memTop = s.memTop := by
  cases i <;> simp only [commandEffect, codecEffect, State.setBlock_memTop, State.setBuffer_memTop]
@[simp] theorem commandEffect_regBase (i : Instr) (s : State) : (commandEffect i s).regBase = s.regBase := by
  cases i <;> simp only [commandEffect, codecEffect, State.setBlock_regBase, State.setBuffer_regBase]
@[simp] theorem commandEffect_turns (i : Instr) (s : State) : (commandEffect i s).turns = s.turns := by
  cases i <;> simp only [commandEffect, codecEffect, State.setBlock_turns, State.setBuffer_turns]
@[simp] theorem commandEffect_responses (i : Instr) (s : State) : (commandEffect i s).responses = s.responses := by
  cases i <;> simp only [commandEffect, codecEffect, State.setBlock_responses, State.setBuffer_responses]
@[simp] theorem commandEffect_draws (i : Instr) (s : State) : (commandEffect i s).draws = s.draws := by
  cases i <;> simp only [commandEffect, codecEffect, State.setBlock_draws, State.setBuffer_draws]
@[simp] theorem commandEffect_duty (i : Instr) (s : State) : (commandEffect i s).duty = s.duty := by
  cases i <;> simp only [commandEffect, codecEffect, State.setBlock_duty, State.setBuffer_duty]

/-- The STATUS that ends a command is the spec's, whatever the command (R74, R76). -/
theorem statusEnds_endCommand (e : Option ErrorKind) (s : State) :
    statusEnds (endCode e).toNat s.status (s.endCommand e).status :=
  ⟨by simp, by simp, by simp, by simp, reserved_completed _ _⟩

/-- A completed block command's frame, for any block (R17, R21). Stated for a variable block, so that
its proof does not unfold the cipher. -/
theorem blockFrame_setBlock (b : Block) (e : Option ErrorKind) (s : State) :
    blockFrame s ((s.setBlock b).releaseHidden.endCommand e) := rfl

/-- A completed buffer command's frame, for any memory (R21, R70). -/
theorem bufferFrame_setBuffer (m : Memory) (n : Nat) (e : Option ErrorKind) (s : State) :
    bufferFrame s ((s.setBuffer m n).releaseHidden.endCommand e) := rfl

/-- A block is its two words. -/
theorem Block.eta (b : Block) : (⟨b.v0, b.v1⟩ : Block) = b := rfl

/-- A buffer command's effect, field by field (R70). -/
theorem codecEffect_eq (i : Instr) (f : Key → Block → Block) (s : State) :
    codecEffect i f s = { s with
      mem := codecLoop (f s.key) (bufferExtent i s) (blockCount i s.len.toNat) 0 s.mem
      outlen := BitVec.ofNat 32 (outLength i s.len.toNat) } := rfl

/-! ### The engine's turn -/

/-- What the engine's turn can do: nothing while idle, an illegal word's error, or the command
(R72). -/
theorem engineTurn_cases (s : State) :
    (s.busy = false ∧ engineTurn s = .next s) ∨
    (s.busy = true ∧ ∃ r, decode s.pend = .error r ∧
      engineTurn s = .next (s.endCommand (some .illegalCommand))) ∨
    (s.busy = true ∧ ∃ i, decode s.pend = .ok i ∧ engineTurn s = exec i s) := by
  unfold engineTurn engineStep
  cases hb : s.busy with
  | false => exact .inl ⟨rfl, rfl⟩
  | true =>
    cases hd : decode s.pend with
    | error r => exact .inr (.inl ⟨rfl, r, rfl, rfl⟩)
    | ok i => exact .inr (.inr ⟨rfl, i, rfl, rfl⟩)

/-- What a step can do: the engine's turn when nobody else has one, or the next turn (R78). -/
theorem step_cases (s : State) :
    (s.turns = [] ∧ step s = engineTurn s) ∨
    ∃ t rest, s.turns = t :: rest ∧ step s = takeTurn t { s with turns := rest } := by
  unfold step nextAction
  cases h : s.turns with
  | nil => exact .inl ⟨rfl, rfl⟩
  | cons t rest => exact .inr ⟨t, rest, rfl, rfl⟩

/-! ### Validation -/

/-- Validation of a block command is the key check (R73). -/
theorem validateInstr_block (i : Instr) (s : State) (h : commandIsBuffer i = false) :
    validateInstr i s = none ↔ s.keylen = 4#32 := by
  unfold validateInstr
  by_cases hk : s.keylen = 4#32 <;> simp [hk, h]

/-- ENC_BUF passes validation exactly when its operands are ready (R66, R73). -/
theorem validateInstr_encBuf (s : State) : validateInstr .encBuf s = none ↔ EncBufReady s := by
  have hm : s.memSize ≤ 2 ^ 32 := by have := s.memTop.isLt; simp only [State.memSize]; omega
  have he : s.src = s.dst ↔ s.src.toNat = s.dst.toNat := BitVec.toNat_inj.symm
  unfold validateInstr validateBuffer EncBufReady rangesApart encBlocks
  by_cases hk : s.keylen = 4#32
  · simp [hk, commandIsBuffer, commandIsDecrypt, Extent.faults, Extent.overlaps, bufferExtent,
      outLength]
    split_ifs <;> simp only [false_iff, true_iff] <;> omega
  · simp [hk]

/-- DEC_BUF passes validation exactly when its operands are ready (R67, R73). -/
theorem validateInstr_decBuf (s : State) : validateInstr .decBuf s = none ↔ DecBufReady s := by
  have hm : s.memSize ≤ 2 ^ 32 := by have := s.memTop.isLt; simp only [State.memSize]; omega
  have hl := s.len.isLt
  unfold validateInstr validateBuffer DecBufReady rangesApart
  by_cases hk : s.keylen = 4#32
  · simp [hk, commandIsBuffer, commandIsDecrypt, Extent.faults, Extent.overlaps, bufferExtent,
      outLength]
    split_ifs <;> simp only [false_iff, true_iff] <;> omega
  · simp [hk]

/-! ### The register window -/

/-- The slot at an offset is the one whose offset it is, and every slot is found (R12). -/
theorem Slot.ofOffset_iff (n : Nat) (slot : Slot) :
    Slot.ofOffset n = some slot ↔ slot.offset = n := by
  constructor
  · intro h
    unfold Slot.ofOffset at h
    split at h <;> first | (cases h; rfl) | cases h
  · rintro rfl
    cases slot <;> rfl

/-- Every slot lies in the window. -/
theorem Slot.offset_lt (slot : Slot) : slot.offset < 64 := by cases slot <;> decide

/-- An access is admitted exactly when it is a 32-bit access at a slot's address (R35). -/
theorem State.reachedSlot_ok_iff (s : State) (width address : Nat) (slot : Slot) :
    s.reachedSlot width address = .ok slot ↔ width = 32 ∧ address = s.slotAddress slot := by
  have hlt := Slot.offset_lt slot
  unfold State.reachedSlot State.slotAddress
  constructor
  · intro h
    split at h
    · cases h
    · split at h
      · cases h
      · split at h
        · rename_i h1 h2 x hx
          cases h
          have := (Slot.ofOffset_iff _ _).1 hx
          omega
        · cases h
  · rintro ⟨rfl, rfl⟩
    have e : s.regBase + slot.offset - s.regBase = slot.offset := by omega
    rw [if_neg (by omega), if_neg (by omega), e, (Slot.ofOffset_iff _ _).2 rfl]

@[simp] theorem State.reachedSlot_slotAddress (s : State) (slot : Slot) :
    s.reachedSlot 32 (s.slotAddress slot) = .ok slot :=
  (State.reachedSlot_ok_iff s 32 _ slot).2 ⟨rfl, rfl⟩

/-- A register write that answers a next state reached a slot (R36). -/
theorem hostRegWrite_next (width address : Nat) (v : Word) (s t : State)
    (h : hostRegWrite width address v s = .next t) :
    ∃ slot, width = 32 ∧ address = s.slotAddress slot ∧ t = s.hostWrite slot v := by
  unfold hostRegWrite at h
  cases ha : s.reachedSlot width address with
  | error r => rw [ha] at h; cases h
  | ok slot =>
    rw [ha] at h
    obtain ⟨h1, h2⟩ := (State.reachedSlot_ok_iff _ _ _ _).1 ha
    cases h
    exact ⟨slot, h1, h2, rfl⟩

/-- A register read that answers a next state reached a slot (R37). -/
theorem hostRegRead_next (width address : Nat) (s t : State)
    (h : hostRegRead width address s = .next t) :
    ∃ slot, width = 32 ∧ address = s.slotAddress slot ∧ t = s.hostRead slot := by
  unfold hostRegRead at h
  cases ha : s.reachedSlot width address with
  | error r => rw [ha] at h; cases h
  | ok slot =>
    rw [ha] at h
    obtain ⟨h1, h2⟩ := (State.reachedSlot_ok_iff _ _ _ _).1 ha
    simp only at h
    split at h
    · cases h
    · cases h
      exact ⟨slot, h1, h2, rfl⟩

/-- A 32-bit write at a slot's offset is the host write of that slot (R35, R36). For CMD, whose offset
is 0, state it at `s.regBase + 0x00` with `show` or `exact`, before `simp` drops the zero. -/
theorem takeTurn_regWrite_slot (s : State) (slot : Slot) (v : Word) :
    takeTurn (.regWrite 32 (s.regBase + slot.offset) v) s = .next (s.hostWrite slot v) := by
  have h : s.reachedSlot 32 (s.regBase + slot.offset) = .ok slot := s.reachedSlot_slotAddress slot
  simp only [takeTurn, hostRegWrite, h]

/-- A 32-bit read at a slot's offset is the host read of that slot, but for a STATUS that holds a
reserved error code (R35, R37, log entry 13). -/
theorem takeTurn_regRead_slot (s : State) (slot : Slot)
    (h : slot = .status → (statusErr s.status).toNat ≤ 5) :
    takeTurn (.regRead 32 (s.regBase + slot.offset)) s = .next (s.hostRead slot) := by
  have hr : s.reachedSlot 32 (s.regBase + slot.offset) = .ok slot := s.reachedSlot_slotAddress slot
  have hn : ¬(slot = .status ∧ 6 ≤ (statusErr s.status).toNat) := fun hc => by
    have := h hc.1
    omega
  simp only [takeTurn, hostRegRead, hr, if_neg hn]

/-- What a register write can do: be ignored while busy, or reach its slot (R36, R38). -/
theorem State.hostWrite_cases (slot : Slot) (v : Word) (s : State) :
    (s.busy = true ∧ s.hostWrite slot v = { s with status := statusWriteIgnored s.status }) ∨
    (s.busy = false ∧ s.hostWrite slot v = s.writeSlot slot v) := by
  unfold State.hostWrite
  cases s.busy
  · exact .inr ⟨rfl, rfl⟩
  · exact .inl ⟨rfl, rfl⟩

/-! ### Data memory from outside -/

/-- Some one of the `n` addresses from `a` upward satisfies `p`. -/
theorem anyAddress_iff (p : Nat → Bool) (a n : Nat) :
    anyAddress p a n = true ↔ ∃ x, a ≤ x ∧ x < a + n ∧ p x = true := by
  induction n generalizing a with
  | zero => simp [anyAddress]; intro x h1 h2; omega
  | succ n ih =>
    simp only [anyAddress, Bool.or_eq_true, ih]
    constructor
    · rintro (h | ⟨x, h1, h2, h3⟩)
      · exact ⟨a, by omega, by omega, h⟩
      · exact ⟨x, by omega, by omega, h3⟩
    · rintro ⟨x, h1, h2, h3⟩
      by_cases hx : x = a
      · subst hx; exact .inl h3
      · exact .inr ⟨x, by omega, by omega, h3⟩

/-- A host memory write that answers a next state stored its bytes, all of which exist (R28). -/
theorem hostMemWrite_next (a : Nat) (bs : List Byte) (s t : State)
    (h : hostMemWrite a bs s = .next t) :
    a + bs.length ≤ s.memSize ∧ t = { s with mem := Memory.writeBytes s.mem a bs } := by
  unfold hostMemWrite at h
  split at h
  · cases h
  · rename_i h1
    split at h
    · cases h
    · cases h
      simp [State.inDataMemory] at h1
      exact ⟨h1, rfl⟩

/-- A host memory read that answers a next state changed nothing but what the host got back. -/
theorem hostMemRead_next (a n : Nat) (s t : State) (h : hostMemRead a n s = .next t) :
    t = { s with responses := .bytes (Memory.readBytes s.mem a n) :: s.responses } := by
  unfold hostMemRead at h
  split at h
  · cases h
  · split at h
    · cases h
    · cases h
      rfl

/-! ### Reset -/

/-- The range a reset abandons is a running buffer command's that passed validation (R92). -/
theorem State.abandoned_some (s : State) (e : Extent) (h : s.abandoned = some e) :
    s.busy = true ∧ ∃ i, decode s.pend = .ok i ∧ commandIsBuffer i = true ∧
      validateInstr i s = none ∧ e = bufferExtent i s := by
  unfold State.abandoned at h
  split at h
  · rename_i hb
    cases hd : decode s.pend with
    | error r => rw [hd] at h; cases h
    | ok i =>
      rw [hd] at h
      simp only at h
      split at h
      · rename_i hc
        cases h
        exact ⟨hb, i, rfl, hc.1, hc.2, rfl⟩
      · cases h
  · cases h

/-- What a reset does to data memory (R92). -/
theorem State.dropCommand_cases (s : State) :
    (s.abandoned = none ∧ s.dropCommand = s) ∨
    ∃ e, s.abandoned = some e ∧ s.dropCommand = { s with
      mem := Memory.drawBytes s.mem e.dst e.outLen s.draws
      draws := s.draws + e.outLen } := by
  unfold State.dropCommand
  cases s.abandoned with
  | none => exact .inl ⟨rfl, rfl⟩
  | some e => exact .inr ⟨e, rfl, rfl⟩

end Sys2Proof.Machine
end

