-- ==== Sys2Proof/Laws/Codec.lean ====
section
/-! SUPPORT. What the Buffer Codec's loop leaves in data memory (41_buffer_codec.md R63 to R65). -/

namespace Sys2Proof.Machine

/-- A block is made of its eight bytes only. -/
theorem blockOfBytes_congr (b c : Nat → Byte) (h : ∀ j, j < 8 → b j = c j) :
    blockOfBytes b = blockOfBytes c := by
  simp only [blockOfBytes, h 0 (by omega), h 1 (by omega), h 2 (by omega), h 3 (by omega),
    h 4 (by omega), h 5 (by omega), h 6 (by omega), h 7 (by omega)]

@[simp] theorem length_blockBytes (b : Block) : (blockBytes b).length = 8 := rfl

theorem getElem_blockBytes (b : Block) (j : Nat) (h : j < (blockBytes b).length) :
    (blockBytes b)[j] = blockByte b j := by
  simp only [length_blockBytes] at h
  interval_cases j <;> rfl

/-- Byte `j` of the block just written (R64). -/
theorem read_writeBlock_inside (m : Memory) (e : Extent) (i j : Nat) (b : Block) (h : j < 8) :
    Memory.read (writeBlock m e i b) (e.dst + 8 * i + j) = blockByte b j := by
  unfold writeBlock
  rw [Memory.read_writeBytes_inside _ _ _ _ (by simpa using h), getElem_blockBytes]

/-- A block's write leaves every byte outside the block alone (R64). -/
theorem read_writeBlock_outside (m : Memory) (e : Extent) (i a : Nat) (b : Block)
    (h : a < e.dst + 8 * i ∨ e.dst + 8 * i + 8 ≤ a) :
    Memory.read (writeBlock m e i b) a = Memory.read m a := by
  unfold writeBlock
  exact Memory.read_writeBytes_outside _ _ _ _ (by simpa using h)

/-- With no partial overlap, a block's write is not seen by the read of another block (R65). -/
theorem readBlock_writeBlock (m : Memory) (e : Extent) (i k : Nat) (b : Block)
    (ha : rangesApart e.src e.len e.dst e.outLen) (hi : 8 * i + 8 ≤ e.outLen) (hk : k ≠ i) :
    readBlock (writeBlock m e i b) e k = readBlock m e k := by
  apply blockOfBytes_congr
  intro j hj
  simp only [inputByte]
  split
  · apply read_writeBlock_outside
    unfold rangesApart at ha
    omega
  · rfl

/-- The loop leaves every byte outside its blocks alone. -/
theorem read_codecLoop_outside (f : Block → Block) (e : Extent) (n i : Nat) (m : Memory) (a : Nat)
    (h : a < e.dst + 8 * i ∨ e.dst + 8 * (i + n) ≤ a) :
    Memory.read (codecLoop f e n i m) a = Memory.read m a := by
  induction n generalizing i m with
  | zero => rfl
  | succ n ih =>
    rw [codecLoop, ih (i + 1) _ (by omega), codecBlock,
      read_writeBlock_outside _ _ _ _ _ (by omega)]

/-- With no partial overlap, byte `j` of output block `k` is byte `j` of the block function applied
to input block `k`, as it was before the command. -/
theorem read_codecLoop_inside (f : Block → Block) (e : Extent) (n i : Nat) (m : Memory) (k j : Nat)
    (ha : rangesApart e.src e.len e.dst e.outLen) (hn : 8 * (i + n) ≤ e.outLen)
    (hk : i ≤ k ∧ k < i + n) (hj : j < 8) :
    Memory.read (codecLoop f e n i m) (e.dst + 8 * k + j) = blockByte (f (readBlock m e k)) j := by
  induction n generalizing i m with
  | zero => omega
  | succ n ih =>
    rw [codecLoop]
    by_cases h : k = i
    · subst h
      rw [read_codecLoop_outside _ _ _ _ _ _ (by omega), codecBlock,
        read_writeBlock_inside _ _ _ _ _ hj]
    · rw [ih (i + 1) _ (by omega) (by omega), codecBlock,
        readBlock_writeBlock _ _ _ _ _ ha (by omega) h]

/-- The loop keeps the canonical form of memory. -/
theorem Memory.wf_codecLoop (f : Block → Block) (e : Extent) (n i : Nat) (m : Memory)
    (h : Memory.wf m = true) : Memory.wf (codecLoop f e n i m) = true := by
  induction n generalizing i m with
  | zero => exact h
  | succ n ih => exact ih _ _ (Memory.wf_writeBytes _ _ _ h)

/-- The loop lists no byte at or beyond the end of its output. -/
theorem Memory.below_codecLoop (f : Block → Block) (e : Extent) (n i : Nat) (m : Memory) (b : Nat)
    (hm : ∀ c ∈ m, c.1 < b) (h : e.dst + 8 * (i + n) ≤ b) :
    ∀ c ∈ codecLoop f e n i m, c.1 < b := by
  induction n generalizing i m with
  | zero => exact hm
  | succ n ih =>
    refine ih _ _ (Memory.below_writeBytes _ _ _ _ hm ?_) (by omega)
    rw [length_blockBytes]
    omega

/-- Reading a block is reading the zero-extended input of R63. -/
theorem readBlock_eq_inputBlock (i : Instr) (s : State) (k : Nat) :
    readBlock s.mem (bufferExtent i s) k = inputBlock s k := rfl

end Sys2Proof.Machine
end

