-- ==== Sys2Proof/Laws/PerInstr.lean ====
section
/-! SUPPORT. A law of every instruction as syntax, one lemma per constructor: its command word is
legal and its MODE and DIR bits are the command's own (30_encoding.md R47, R50). -/

namespace Sys2Proof.Laws.CommandBits

open Sys2Proof Sys2Proof.Machine

/-- The word of `i` is legal, and its MODE and DIR bits name `i`. -/
def Statement (i : Instr) : Prop :=
  i.wf = true ∧ legalCommandWord (encode i) = true ∧
    commandMode (encode i) = commandIsBuffer i ∧ commandDir (encode i) = commandIsDecrypt i ∧
    commandOf (commandIsBuffer i) (commandIsDecrypt i) = i

theorem encBlock : Statement .encBlock := by unfold Statement; decide

theorem decBlock : Statement .decBlock := by unfold Statement; decide

theorem encBuf : Statement .encBuf := by unfold Statement; decide

theorem decBuf : Statement .decBuf := by unfold Statement; decide

end Sys2Proof.Laws.CommandBits
end

