-- ==== Sys2Proof/Tests/Slice0.lean ====
section
/-! SUPPORT. Tests of single steps, whose expected values are those of spec/95_test_vectors.md, and
for every obligation with hypotheses a concrete state that meets them. -/

namespace Sys2Proof.Tests

open Sys2Proof Sys2Proof.Machine

/-! ### States to test on -/

/-- Does the step answer a next state with the property `p`? -/
def nextWith (o : Host.Outcome State Fault Refusal) (p : State → Bool) : Bool :=
  match o with
  | .next t => p t
  | .fault _ => false
  | .refused _ => false

/-- The reset machine with a key presented (R93 item 3). -/
def keyed (k0 k1 k2 k3 : Word) : State :=
  { State.reset with keylen := 4#32, k0 := k0, k1 := k1, k2 := k2, k3 := k3 }

/-- A keyed machine with a block in V0, V1. -/
def withBlock (k0 k1 k2 k3 v0 v1 : Word) : State := { keyed k0 k1 k2 k3 with v0 := v0, v1 := v1 }

/-- A keyed machine with buffer operands and `bytes` placed at SRC. -/
def withBuffer (k0 k1 k2 k3 src dst len : Word) (bytes : List Byte) : State :=
  { keyed k0 k1 k2 k3 with
    src := src, dst := dst, len := len, mem := Memory.writeBytes [] src.toNat bytes }

/-- The operand states of T30 to T42: key K1, no bytes placed. -/
def bufferState (src dst len : Word) : State := withBuffer 1 2 3 4 src dst len []

/-- The same state with the command word `c` accepted (R71). -/
def running (c : Word) (s : State) : State := s.accept c

/-- Two blocks of the bytes 0 to 8 and a zero tail, in place (P4 step 2). -/
def inPlaceTail : State := withBuffer 0 0 0 0 0x100 0x100 9 [0, 1, 2, 3, 4, 5, 6, 7, 8, 0xEE]

/-! ### Decoding and well-formedness -/

/-- R47, T51, T52: the words whose START is 0 or with a reserved bit set are ill-formed. -/
theorem test_illegal_words_are_not_well_formed :
    legalCommandWord 0x00000000#32 = false ∧ legalCommandWord 0x00000003#32 = false ∧
    legalCommandWord 0x00000008#32 = false ∧ legalCommandWord 0x0000000C#32 = false ∧
    legalCommandWord 0x00000014#32 = false ∧ legalCommandWord 0x80000006#32 = false ∧
    legalCommandWord 0xFFFFFFFF#32 = false ∧ legalCommandWord 0x00000004#32 = true ∧
    legalCommandWord 0x00000007#32 = true := by decide

/-- T50: the word of ENC_BLOCK, written from RSVD, START, MODE and DIR (R47, R50). -/
theorem test_decode_enc_block : decode (0#29 ++ 1#1 ++ 0#1 ++ 0#1) = .ok .encBlock := by decide

/-- T50: the word of DEC_BLOCK. -/
theorem test_decode_dec_block : decode (0#29 ++ 1#1 ++ 0#1 ++ 1#1) = .ok .decBlock := by decide

/-- T50: the word of ENC_BUF. -/
theorem test_decode_enc_buf : decode (0#29 ++ 1#1 ++ 1#1 ++ 0#1) = .ok .encBuf := by decide

/-- T50: the word of DEC_BUF. -/
theorem test_decode_dec_buf : decode (0#29 ++ 1#1 ++ 1#1 ++ 1#1) = .ok .decBuf := by decide

/-- T51, T52: illegal words are rejected by name. -/
theorem test_decode_rejects :
    decode 0x00000000#32 = .error .startClear ∧ decode 0x00000003#32 = .error .startClear ∧
    decode 0x0000000C#32 = .error .reservedBits ∧ decode 0x80000006#32 = .error .reservedBits ∧
    decode 0xFFFFFFFF#32 = .error .reservedBits := by decide

/-- R48: a table word has 32 bits; a set bit above them is no command word. -/
theorem test_decode_table_word :
    decodeTableWord 32 6 = some .encBuf ∧ decodeTableWord 8 0x107 = some .decBuf ∧
    decodeTableWord 32 8 = none ∧ decodeTableWord 40 0x100000004 = none := by decide

/-- R35, R39: each ill-formed host access is refused by name. -/
theorem test_ill_formed_accesses_are_refused :
    takeTurn (.regRead 16 0x04) State.reset = .refused (.unsupportedAccess 16 0x04) ∧
    takeTurn (.regRead 32 0x05) State.reset = .refused (.unsupportedAccess 32 0x05) ∧
    takeTurn (.regWrite 32 0x40 0) State.reset = .refused (.outsideWindow 0x40) ∧
    takeTurn (.memWrite 0xFFF [0, 0]) State.reset = .refused (.outsideDataMemory 0xFFF 2) :=
  ⟨rfl, rfl, rfl, rfl⟩

/-! ### The commands, one step each -/

set_option maxRecDepth 10000 in
/-- T6: the right shift is logical. -/
theorem test_enc_block_logical_shift :
    nextWith (exec .encBlock
        (withBlock 0x80000000 0 0x7FFFFFFF 0xFFFFFFFF 0x80000000 0x7FFFFFFF))
      (fun t => t.v0 == 0x6EE4D8A1#32 && t.v1 == 0x24051797#32) = true := by decide

set_option maxRecDepth 10000 in
/-- T12: distinct key words, decrypting. -/
theorem test_dec_block_distinct_key_words :
    nextWith (exec .decBlock
        (withBlock 0x00112233 0x44556677 0x8899AABB 0xCCDDEEFF 0x01234567 0x89ABCDEF))
      (fun t => t.v0 == 0xBF467633#32 && t.v1 == 0x9D07A595#32) = true := by decide

set_option maxRecDepth 10000 in
/-- T11: every subtraction wraps. -/
theorem test_dec_block_wraps :
    nextWith (exec .decBlock
        (withBlock 0xFFFFFFFF 0xFFFFFFFF 0xFFFFFFFF 0xFFFFFFFF 0xFFFFFFFF 0xFFFFFFFF))
      (fun t => t.v0 == 0x4661B456#32 && t.v1 == 0x35944E26#32) = true := by decide

set_option maxRecDepth 10000 in
/-- P4 step 2 (T22 in place): nine bytes become sixteen, the byte after the input is not read. -/
theorem test_enc_buf_in_place_tail :
    nextWith (exec .encBuf inPlaceTail)
      (fun t => Memory.readBytes t.mem 0x100 16 ==
          [0xA3, 0x12, 0x69, 0xB9, 0xBD, 0xDE, 0xBA, 0xF3,
           0x15, 0x53, 0x3A, 0x20, 0x76, 0x5C, 0xC9, 0xA9] && t.outlen == 16#32) = true := by
  decide

set_option maxRecDepth 10000 in
/-- T24 (T5 as bytes): the byte order of a block, and distinct key words. -/
theorem test_enc_buf_byte_order :
    nextWith (exec .encBuf (withBuffer 0x00112233 0x44556677 0x8899AABB 0xCCDDEEFF 0x100 0x200 8
        [0x67, 0x45, 0x23, 0x01, 0xEF, 0xCD, 0xAB, 0x89]))
      (fun t => Memory.readBytes t.mem 0x200 8 ==
        [0x92, 0x6B, 0x6C, 0x12, 0x3E, 0x3A, 0x65, 0xC0]) = true := by decide

set_option maxRecDepth 10000 in
/-- T21d: the five bytes after the plaintext are zeros. -/
theorem test_dec_buf_zero_tail :
    nextWith (exec .decBuf (withBuffer 0 0 0 0 0x100 0x200 8
        [0x4B, 0x50, 0x2C, 0x49, 0x00, 0x1A, 0x40, 0xCB]))
      (fun t => Memory.readBytes t.mem 0x200 8 == [1, 2, 3, 0, 0, 0, 0, 0] &&
        t.outlen == 8#32) = true := by decide

set_option maxRecDepth 10000 in
/-- T29: two blocks of data never encrypted. -/
theorem test_dec_buf_two_blocks :
    nextWith (exec .decBuf (withBuffer 0x00112233 0x44556677 0x8899AABB 0xCCDDEEFF 0x100 0x200 16
        [0, 1, 2, 3, 4, 5, 6, 7, 8, 9, 10, 11, 12, 13, 14, 15]))
      (fun t => Memory.readBytes t.mem 0x200 16 ==
        [0x33, 0xC7, 0x92, 0xEF, 0x58, 0x93, 0x38, 0xCE,
         0xEE, 0xEA, 0x94, 0xCC, 0x4C, 0x4B, 0xB9, 0x5A]) = true := by decide

/-! ### Validation and the window -/

/-- T15, T30, T32, T33, T35, T38 to T40, T42, T53: the error a command ends with. -/
theorem test_validation_errors :
    validate 4 { State.reset with keylen := 3 } = some .invalidKeyLength ∧
    validate 7 (bufferState 0x100 0x200 7) = some .misalignedBuffer ∧
    validate 6 (bufferState 0x100 0x200 0xFFFFFFF9) = some .accessFault ∧
    validate 6 (bufferState 0x100 0x104 8) = some .bufferOverlap ∧
    validate 6 (bufferState 0x100 0x108 9) = some .bufferOverlap ∧
    validate 6 (bufferState 0xFFC 0x200 8) = some .accessFault ∧
    validate 6 (bufferState 0x200 0xFF8 9) = some .accessFault ∧
    validate 6 (bufferState 0x2000 0x100 0) = some .accessFault ∧
    validate 7 { bufferState 0xFFC 0x200 7 with keylen := 5 } = some .invalidKeyLength ∧
    validate 8 State.reset = some .illegalCommand := by decide

/-- T31, T34, T36, T37, T41: what passes. -/
theorem test_validation_passes :
    validate 6 (bufferState 0x100 0x200 7) = none ∧
    validate 6 (bufferState 0x100 0x108 8) = none ∧
    validate 6 (bufferState 0x100 0x100 9) = none ∧
    validate 6 (bufferState 0xFF8 0x200 8) = none ∧
    validate 7 (bufferState 0x100 0x100 0) = none := by decide

/-- P5 step 3 with the command in progress: the write is lost and WIGN says so (R38). -/
theorem test_busy_write_sets_wign :
    nextWith (takeTurn (.regWrite 32 0x20 0x12345678) (running 4 (keyed 0 0 0 0)))
      (fun t => t.v0 == 0#32 && t.status == 0x00000005#32) = true := by decide

/-- P5, first schedule: the completion keeps WIGN, so STATUS is 0x00000006. -/
theorem test_completion_keeps_wign :
    nextWith (step { running 4 (keyed 0 0 0 0) with status := 0x00000005#32 })
      (fun t => t.status == 0x00000006#32 && t.v0 == 0x41EA3A0A#32 && t.v1 == 0x94BAA940#32) =
      true := by decide

/-- T52: an illegal word's step leaves STATUS 0x00000032. -/
theorem test_illegal_word_step :
    nextWith (step (State.reset.withFetchWord 32 0x80000006))
      (fun t => t.status == 0x00000032#32 && t.pend == 0x80000006#32) = true := by decide

/-! ### Witnesses: encoding and running -/

/-- For `LegalWordsAreTheFourCommands`: legal words at both ends, illegal ones beside them. -/
theorem witness_legal_words :
    decode 4#32 = .ok .encBlock ∧ decode 7#32 = .ok .decBuf ∧
    (decode 3#32).toOption = none ∧ (decode 8#32).toOption = none := by decide

/-- For `DecodeAndEncodeAgree`: every constructor is well formed. -/
theorem witness_well_formed :
    Instr.encBlock.wf = true ∧ Instr.decBlock.wf = true ∧ Instr.encBuf.wf = true ∧
    Instr.decBuf.wf = true := by decide

/-- For `IllegalWordEndsWithCodeThree`: START clear, and a reserved bit set. -/
theorem witness_illegal_word :
    State.reset.busy = false ∧ (3#32).toNat / 4 % 2 ≠ 1 ∧ (8#32).toNat / 8 ≠ 0 := by decide

/-- For `StepRunsTheDecodedCommand`, with and without an entry of `turns`. -/
theorem witness_step_runs :
    (running 6 State.reset).busy = true ∧ decode (running 6 State.reset).pend = .ok .encBuf ∧
    (running 6 State.reset).turns = [] ∧
    { running 6 State.reset with turns := [.engine] }.turns = .engine :: [] := by decide

/-- For `PlacedWordRunsNext`: a table word of each command. -/
theorem witness_placed_word :
    decodeTableWord 32 4 = some .encBlock ∧ decodeTableWord 32 5 = some .decBlock ∧
    decodeTableWord 32 6 = some .encBuf ∧ decodeTableWord 32 7 = some .decBuf := by decide

/-- For `IdleEngineKeepsEverything`. -/
theorem witness_idle : State.reset.busy = false ∧ State.reset.turns = [] := by decide

/-! ### Witnesses: the commands -/

/-- For `EncBlockEncryptsTheBlock` and `DecBlockDecryptsTheBlock`: a key of length 4, and the lengths
0, 3 and 5 beside it. -/
theorem witness_key_lengths :
    (keyed 1 2 3 4).keylen = 4#32 ∧ State.reset.keylen ≠ 4#32 ∧
    { keyed 1 2 3 4 with keylen := 3#32 }.keylen ≠ 4#32 ∧
    { keyed 1 2 3 4 with keylen := 5#32 }.keylen ≠ 4#32 := by decide

/-- For `DecryptBlockIsThePseudocode`: the first and the last round. -/
theorem witness_rounds : (1 ≤ 1 ∧ 1 ≤ 32) ∧ (1 ≤ 32 ∧ 32 ≤ 32) := by decide

/-- For `ByteOrderIsLittleEndian`: the last byte of a word and of a block. -/
theorem witness_byte_positions : 3 < 4 ∧ 7 < 8 := by decide

/-- For `EncBufEncryptsTheBuffer`: a partial tail in place (T36), and its last byte position. -/
theorem witness_enc_buf_in_place : EncBufReady inPlaceTail ∧ 1 < encBlocks inPlaceTail ∧ 7 < 8 := by
  unfold EncBufReady rangesApart
  decide

/-- For `EncBufEncryptsTheBuffer`: adjacent ranges (T34), the input ending at MEM_SIZE (T37), and an
output ending there, with bytes outside the output range on both sides. -/
theorem witness_enc_buf_edges :
    EncBufReady (bufferState 0x100 0x108 8) ∧ EncBufReady (bufferState 0xFF8 0x200 8) ∧
    EncBufReady (bufferState 0x200 0xFF8 1) ∧
    (0xFF7 < (bufferState 0x200 0xFF8 1).dst.toNat) ∧
    (bufferState 0x100 0x108 8).dst.toNat + 8 * encBlocks (bufferState 0x100 0x108 8) ≤ 0x110 := by
  unfold EncBufReady rangesApart
  decide

/-- For `DecBufDecryptsTheBuffer`: apart, in place, and ending at MEM_SIZE. -/
theorem witness_dec_buf :
    DecBufReady (bufferState 0x100 0x200 16) ∧ DecBufReady (bufferState 0x100 0x100 8) ∧
    DecBufReady (bufferState 0xFF0 0xFF8 8) ∧ 1 < (bufferState 0x100 0x200 16).len.toNat / 8 := by
  unfold DecBufReady rangesApart
  decide

/-- For `EmptyBufferWritesNothing`: SRC and DST may be MEM_SIZE itself (T27, D28). -/
theorem witness_empty_buffer :
    (bufferState 0x1000 0x1000 0).len = 0#32 ∧ EncBufReady (bufferState 0x1000 0x1000 0) ∧
    DecBufReady (bufferState 0x1000 0x1000 0) := by
  unfold EncBufReady DecBufReady rangesApart
  decide

/-- Three bytes (T21), so that the second clause of the round trip has five zeros to speak of. -/
def threeBytes : State := withBuffer 0 0 0 0 0x100 0x200 3 [1, 2, 3]

/-- For `BufferRoundTripPadsWithZeros`: T21 and T21d, the place being 0x300; the last byte of the
plaintext and the first and last zero. -/
theorem witness_round_trip :
    EncBufReady threeBytes ∧
    (∃ t, exec .encBuf threeBytes = .next t ∧
      DecBufReady { t with src := threeBytes.dst, dst := 0x300#32, len := t.outlen }) ∧
    2 < threeBytes.len.toNat ∧ threeBytes.len.toNat ≤ 3 ∧ 7 < 8 * encBlocks threeBytes := by
  refine ⟨?_, ⟨_, rfl, ?_⟩, ?_⟩
  · unfold EncBufReady rangesApart
    decide
  · unfold DecBufReady rangesApart
    decide
  · decide

/-- For `BlockOrderIsIrrelevant`: two blocks in place with a partial tail, processed backwards. -/
theorem witness_block_order :
    (⟨0x100, 9, 0x100, 16⟩ : Extent).outLen = 8 * 2 ∧
    (⟨0x100, 9, 0x100, 16⟩ : Extent).len ≤ (⟨0x100, 9, 0x100, 16⟩ : Extent).outLen ∧
    rangesApart 0x100 9 0x100 16 ∧ [1, 0].Perm (List.range 2) := by
  unfold rangesApart
  decide

/-- Two equal plaintext blocks (T20 with whole blocks). -/
def twoEqualBlocks : State :=
  withBuffer 1 2 3 4 0x100 0x200 16 [0, 0, 0, 0, 0, 0, 0, 0, 0, 0, 0, 0, 0, 0, 0, 0]

set_option maxRecDepth 10000 in
/-- For `EqualBlocksGiveEqualOutput`: blocks 0 and 1 of one command, either way. -/
theorem witness_equal_blocks :
    EncBufReady twoEqualBlocks ∧ DecBufReady twoEqualBlocks ∧
    (∃ t, exec .encBuf twoEqualBlocks = .next t) ∧ (∃ t, exec .decBuf twoEqualBlocks = .next t) ∧
    1 < encBlocks twoEqualBlocks ∧ 1 < twoEqualBlocks.len.toNat / 8 ∧
    inputBlock twoEqualBlocks 0 = inputBlock twoEqualBlocks 1 := by
  refine ⟨?_, ?_, ⟨_, rfl⟩, ⟨_, rfl⟩, ?_⟩
  · unfold EncBufReady rangesApart
    decide
  · unfold DecBufReady rangesApart
    decide
  · decide

/-- For `BytesBeyondLenHaveNoEffect`: two memories that differ only in the byte after the input. -/
theorem witness_beyond_len :
    EncBufReady threeBytes ∧
    Memory.write threeBytes.mem 0x103 0xEE#8 ≠ threeBytes.mem ∧
    (∀ k, k < threeBytes.len.toNat →
      Memory.read (Memory.write threeBytes.mem 0x103 0xEE#8) (threeBytes.src.toNat + k) =
        Memory.read threeBytes.mem (threeBytes.src.toNat + k)) ∧
    (∃ t, exec .encBuf threeBytes = .next t) ∧
    ∃ t, exec .encBuf { threeBytes with mem := Memory.write threeBytes.mem 0x103 0xEE#8 } =
      .next t := by
  refine ⟨?_, ?_, ?_, ⟨_, rfl⟩, ⟨_, rfl⟩⟩
  · unfold EncBufReady rangesApart
    decide
  · decide
  · have h : threeBytes.len.toNat = 3 := by decide
    rw [h]
    decide

/-- For `OneBlockBufferIsTheBlockCommand`. -/
theorem witness_one_block :
    EncBufReady (bufferState 0x100 0x200 8) ∧ (bufferState 0x100 0x200 8).len = 8#32 := by
  unfold EncBufReady rangesApart
  decide

/-! ### Witnesses: errors and the window -/

/-- For `FirstFailingCheckIsReported`: a busy state for each code, and one for none. -/
theorem witness_first_error :
    (running 6 State.reset).busy = true ∧ (running 6 State.reset).turns = [] ∧
    firstError 8 State.reset = 3 ∧ firstError 3 State.reset = 3 ∧ firstError 4 State.reset = 1 ∧
    firstError 7 (bufferState 0x100 0x200 7) = 2 ∧
    firstError 6 (bufferState 0xFFC 0x200 8) = 4 ∧
    firstError 6 (bufferState 0x100 0x104 8) = 5 ∧
    firstError 6 (bufferState 0x100 0x108 8) = 0 ∧ firstError 5 (keyed 0 0 0 0) = 0 := by decide

/-- For `EveryCommandFailsBeforeAKey`: idle with KEYLEN 0, 3 and 5. -/
theorem witness_no_key :
    State.reset.busy = false ∧ State.reset.keylen ≠ 4#32 ∧
    { keyed 1 2 3 4 with keylen := 3#32 }.busy = false ∧
    { keyed 1 2 3 4 with keylen := 3#32 }.keylen ≠ 4#32 ∧
    { keyed 1 2 3 4 with keylen := 5#32 }.keylen ≠ 4#32 := by decide

/-- For `CmdWriteIsAcceptedWhenIdle`, `IdleReadsReturnTheRegisters` and `BusyWindowIgnoresWrites`:
idle and busy with no reserved error code, idle with the last code, the first and the last offset
written, and the offsets of the free reads. -/
theorem witness_idle_and_busy :
    State.reset.busy = false ∧ (running 4 State.reset).busy = true ∧
    (statusErr (running 4 State.reset).status).toNat ≤ 5 ∧
    { State.reset with status := 0x00000052#32 }.busy = false ∧
    (statusErr 0x00000052#32).toNat ≤ 5 ∧
    (0x00 < 64 ∧ 0x00 % 4 = 0) ∧ (0x3C < 64 ∧ 0x3C % 4 = 0) ∧
    0x20 ∈ [0x20, 0x24, 0x34] ∧ 0x34 ∈ [0x20, 0x24, 0x34] := by decide

/-- For `OperandRegistersReadBack`: the offsets of the first and the last operand register. -/
theorem witness_operand_offsets :
    State.reset.busy = false ∧
    0x08 ∈ [0x08, 0x10, 0x14, 0x18, 0x1C, 0x20, 0x24, 0x28, 0x2C, 0x30] ∧
    0x30 ∈ [0x08, 0x10, 0x14, 0x18, 0x1C, 0x20, 0x24, 0x28, 0x2C, 0x30] := by decide

/-- A word below 128 whose bit 3 is 0 has every reserved bit of STATUS clear (R14). -/
theorem reserved_bits_clear (st : Word) (hs : st.toNat < 128) (h3 : st.toNat / 8 % 2 = 0) :
    ∀ i, i = 3 ∨ 7 ≤ i → st.getLsbD i = false := by
  intro i hi
  rw [BitVec.getLsbD, Nat.testBit_eq_decide_div_mod_eq]
  rcases hi with rfl | hi
  · simp [h3]
  · have : st.toNat / 2 ^ i = 0 := Nat.div_eq_of_lt
      (Nat.lt_of_lt_of_le hs (Nat.pow_le_pow_right (by decide : 0 < 2) hi))
    simp [this]

/-- For `ReadOnlySlotsIgnoreWrites`: its three clauses, bits 3, 7 and 31 of STATUS. -/
theorem witness_read_only_slots :
    statusLegal State.reset.status ∧ State.reset.busy = false ∧
    0x04 ∈ [0x04, 0x0C, 0x34, 0x38, 0x3C] ∧ 0x3C ∈ [0x04, 0x0C, 0x34, 0x38, 0x3C] ∧
    0x00 ∈ [0x00, 0x0C, 0x38, 0x3C] ∧
    (3 = 3 ∨ 7 ≤ 3) ∧ (7 = 3 ∨ 7 ≤ 7) ∧ (31 = 3 ∨ 7 ≤ 31) :=
  ⟨⟨reserved_bits_clear _ (by decide) (by decide), by decide⟩, by decide⟩

/-- For `ReadsChangeNoRegister`, idle and busy, and for the statements about a register read. -/
theorem witness_reads :
    (∃ t, takeTurn (.regRead 32 0x04) State.reset = .next t) ∧
    ∃ t, takeTurn (.regRead 32 0x20) (running 4 State.reset) = .next t :=
  ⟨⟨_, rfl⟩, ⟨_, rfl⟩⟩

/-- For `OnlyAlignedWordAccessesAreAdmitted`: the last offset of the window, the last slot, and the
read of STATUS with the last error code. -/
theorem witness_offsets :
    63 < 64 ∧ 63 % 4 ≠ 0 ∧ 60 < 64 ∧ 60 % 4 = 0 ∧ (16 ≠ 32 ∨ 0 % 4 ≠ 0) ∧ 60 ≠ 0x04 ∧
    0x04 % 4 = 0 ∧ (statusErr 0x00000052#32).toNat ≤ 5 := by decide

/-! ### Witnesses: the whole machine -/

/-- For `EngineNeverWritesKeyOrOperands`: an idle turn and a command. -/
theorem witness_engine_turn :
    (∃ t, engineTurn State.reset = .next t) ∧
    ∃ t, engineTurn (running 4 (keyed 0 0 0 0)) = .next t :=
  ⟨⟨_, rfl⟩, ⟨_, rfl⟩⟩

/-- For `OnlyBufferCommandsChangeOutlen`: a reset after a buffer command, and a buffer command. -/
theorem witness_outlen_changes :
    nextWith (step { State.reset with outlen := 8#32, turns := [.reset] })
      (fun t => t.outlen != 8#32) = true ∧
    nextWith (step (running 6 threeBytes)) (fun t => t.outlen != 0#32) = true := by decide

/-- For `BusyRisesAtCmdAndFallsAtCompletion`: BUSY rises, falls at a completion and at a reset, and
DONE rises. -/
theorem witness_busy_changes :
    nextWith (step { State.reset with turns := [.regWrite 32 0x00 4] }) (fun t => t.busy) = true ∧
    State.reset.busy = false ∧ State.reset.done = false ∧
    nextWith (step (running 4 State.reset)) (fun t => !t.busy && t.done) = true ∧
    (running 4 State.reset).busy = true ∧ (running 4 State.reset).done = false ∧
    nextWith (step { running 4 State.reset with turns := [.reset] }) (fun t => !t.busy) = true := by
  decide

/-- For `DoneAndErrAreKeptBetweenCommands`: DONE falls at an acceptance and at a reset; ERR changes at
an acceptance, a completion and a reset. -/
theorem witness_done_and_err_changes :
    { State.reset with status := 0x00000052#32 }.done = true ∧
    nextWith (step { State.reset with status := 0x00000052#32, turns := [.regWrite 32 0x00 4] })
      (fun t => !t.done && statusErr t.status != statusErr 0x00000052#32) = true ∧
    nextWith (step { State.reset with status := 0x00000052#32, turns := [.reset] })
      (fun t => !t.done && statusErr t.status != statusErr 0x00000052#32) = true ∧
    nextWith (step (running 4 State.reset))
      (fun t => statusErr t.status != statusErr 0x00000001#32) = true := by decide

/-- For `WignRecordsBusyWrites`: WIGN rises, and falls at an acceptance and at a reset. -/
theorem witness_wign_changes :
    statusWign (running 4 State.reset).status = false ∧
    nextWith (step { running 4 State.reset with turns := [.regWrite 32 0x04 0] })
      (fun t => statusWign t.status) = true ∧
    statusWign (0x00000006#32) = true ∧
    nextWith (step { State.reset with status := 0x00000006#32, turns := [.regWrite 32 0x00 4] })
      (fun t => !statusWign t.status) = true ∧
    nextWith (step { State.reset with status := 0x00000006#32, turns := [.reset] })
      (fun t => !statusWign t.status) = true := by decide

/-- For `MemoryChangesOnlyWhereItMay`: the host overwrites a byte, and a command encrypts in place. -/
theorem witness_memory_changes :
    Memory.read threeBytes.mem 0x100 = 1#8 ∧
    nextWith (step { threeBytes with turns := [.memWrite 0x100 [9]] })
      (fun t => Memory.read t.mem 0x100 == 9#8) = true ∧
    nextWith (step (running 6 { threeBytes with dst := 0x100#32 }))
      (fun t => Memory.read t.mem 0x100 == 0x4B#8) = true := by decide

/-- For `HiddenRegistersAreUnobservable`, `PlatformParametersAreFixed` and the invariants' steps: a
step that answers a next state, idle and busy. -/
theorem witness_steps :
    State.reset.busy = false ∧ (∃ t, step State.reset = .next t) ∧
    ∃ t, step (running 6 threeBytes) = .next t :=
  ⟨rfl, ⟨_, rfl⟩, ⟨_, rfl⟩⟩

/-! ### Witnesses: the invariants -/

/-- For `StatusStaysLegal`: idle after reset, busy, busy with a lost write, done, done with an error;
and a step from such a state. -/
theorem witness_status_legal :
    (statusLegal State.reset.status ∧ (∃ t, step State.reset = .next t)) ∧
    (statusLegal (running 6 threeBytes).status ∧ ∃ t, step (running 6 threeBytes) = .next t) ∧
    statusLegal 0x00000005#32 ∧ statusLegal 0x00000002#32 ∧ statusLegal 0x00000056#32 :=
  ⟨⟨⟨reserved_bits_clear _ (by decide) (by decide), by decide⟩, _, rfl⟩,
    ⟨⟨reserved_bits_clear _ (by decide) (by decide), by decide⟩, _, rfl⟩,
    ⟨reserved_bits_clear _ (by decide) (by decide), by decide⟩,
    ⟨reserved_bits_clear _ (by decide) (by decide), by decide⟩,
    ⟨reserved_bits_clear _ (by decide) (by decide), by decide⟩⟩

/-- For `MemoryStaysLegal`: a memory with bytes, among them the last one that exists; and a step that
writes memory. -/
theorem witness_memory_legal :
    { threeBytes with mem := [(0x100, 1#8), (0xFFF, 2#8)] }.memLegal ∧
    (running 6 threeBytes).memLegal ∧ ∃ t, step (running 6 threeBytes) = .next t := by
  refine ⟨?_, ?_, _, rfl⟩ <;> unfold State.memLegal <;> decide

/-- A buffer command in progress whose ranges the host's duty covers: input 0x100 .. 0x102, output
0x200 .. 0x207. -/
def busyBuffer : State := running 6 threeBytes

/-- For `DutyCoversTheRunningCommand`, `HostRaceIsAFault`: an acceptance covers the ranges. -/
theorem witness_duty_covers :
    busyBuffer.busy = true ∧ decode busyBuffer.pend = .ok .encBuf ∧
    commandIsBuffer .encBuf = true ∧ (∃ t, step busyBuffer = .next t) ∧ busyBuffer.dutyCovers := by
  refine ⟨rfl, rfl, rfl, ⟨_, rfl⟩, ?_⟩
  intro _ i hi _
  have h : decode busyBuffer.pend = .ok .encBuf := rfl
  rw [h] at hi
  cases hi
  decide

/-- For `OutlenStaysWholeBlocks`: OUTLEN of the whole memory, and a step that sets OUTLEN. -/
theorem witness_outlen_legal :
    { State.reset with outlen := 0x1000#32 }.outlenLegal ∧
    (∃ t, step { State.reset with outlen := 0x1000#32 } = .next t) ∧
    (running 6 threeBytes).outlenLegal ∧ ∃ t, step (running 6 threeBytes) = .next t := by
  refine ⟨?_, ⟨_, rfl⟩, ?_, ⟨_, rfl⟩⟩ <;> unfold State.outlenLegal <;> decide

/-! ### Witnesses: reset and the host's duty -/

/-- For `ResetClearsRegistersKeepsMemory`: idle, a command that would fail, a block command, and the
byte after a running command's output range. -/
theorem witness_reset_keeps :
    State.reset.busy = false ∧ firstError (running 6 State.reset).pend (running 6 State.reset) ≠ 0 ∧
    (running 4 State.reset).pend.toNat / 2 % 2 = 0 ∧ ¬busyBuffer.runningOutput 0x208 := by
  refine ⟨by decide, by decide, by decide, ?_⟩
  rintro ⟨_, i, hi, _, _, h⟩
  have e : decode busyBuffer.pend = .ok .encBuf := rfl
  rw [e] at hi
  cases hi
  revert h
  decide

/-- For `HostRaceIsAFault`: the first and last bytes of the input and the output range, the last
touched by an access that starts before it. -/
theorem witness_race_addresses :
    (busyBuffer.src.toNat ≤ 0x100 ∧ 0x100 < busyBuffer.src.toNat + busyBuffer.len.toNat) ∧
    (busyBuffer.src.toNat ≤ 0x102 ∧ 0x102 < busyBuffer.src.toNat + busyBuffer.len.toNat) ∧
    busyBuffer.runningOutput 0x200 ∧ busyBuffer.runningOutput 0x207 ∧
    0x1FF + [0#8, 0#8].length ≤ busyBuffer.memSize ∧ 0x1FF ≤ 0x200 ∧
    0x200 < 0x1FF + [0#8, 0#8].length := by
  refine ⟨by decide, by decide, ⟨rfl, .encBuf, rfl, rfl, by decide, by decide⟩,
    ⟨rfl, .encBuf, rfl, rfl, by decide, by decide⟩, by decide⟩

/-- R42: the race itself, and a read of the input range beside it, which R94 allows. -/
theorem test_host_race :
    takeTurn (.memWrite 0x102 [0]) busyBuffer = .fault .hostRace ∧
    takeTurn (.memRead 0x1FF 2) busyBuffer = .fault .hostRace ∧
    nextWith (takeTurn (.memRead 0x100 3) busyBuffer)
      (fun t => t.responses == [.bytes [1, 2, 3]]) = true := ⟨rfl, rfl, by decide⟩

/-- For `HostReadsBackWhatItWrote`: no duty up to the last byte, and the bytes between the two ranges
of a running command. -/
theorem witness_host_writes :
    (0xFFF + [5#8].length ≤ State.reset.memSize ∧
      ∀ e ∈ State.reset.duty, ∀ x, 0xFFF ≤ x → x < 0xFFF + [5#8].length →
        ¬(e.src ≤ x ∧ x < e.src + e.len) ∧ ¬(e.dst ≤ x ∧ x < e.dst + e.outLen)) ∧
    (0x103 + [5#8, 6#8].length ≤ busyBuffer.memSize ∧
      ∀ e ∈ busyBuffer.duty, ∀ x, 0x103 ≤ x → x < 0x103 + [5#8, 6#8].length →
        ¬(e.src ≤ x ∧ x < e.src + e.len) ∧ ¬(e.dst ≤ x ∧ x < e.dst + e.outLen)) := by
  refine ⟨⟨by decide, fun e he => absurd he List.not_mem_nil⟩, by decide, ?_⟩
  intro e he x h1 h2
  have hd : busyBuffer.duty = [⟨0x100, 3, 0x200, 8⟩] := by decide
  rw [hd, List.mem_singleton] at he
  subst he
  simp only [List.length_cons, List.length_nil] at h2
  constructor <;> simp only <;> omega

/-- For `HostMayReadOutsideTheOutputRanges`: the whole input range of a running command, the last bytes
before and the first byte after its output range, and the last position read. -/
theorem witness_host_reads :
    (busyBuffer.busy = true ∧ 0x100 + 3 ≤ busyBuffer.memSize ∧ 2 < 3 ∧
      ∀ e ∈ busyBuffer.duty, ∀ x, 0x100 ≤ x → x < 0x100 + 3 → ¬(e.dst ≤ x ∧ x < e.dst + e.outLen)) ∧
    (0x1FE + 2 ≤ busyBuffer.memSize ∧
      ∀ e ∈ busyBuffer.duty, ∀ x, 0x1FE ≤ x → x < 0x1FE + 2 → ¬(e.dst ≤ x ∧ x < e.dst + e.outLen)) ∧
    (0x208 + 1 ≤ busyBuffer.memSize ∧
      ∀ e ∈ busyBuffer.duty, ∀ x, 0x208 ≤ x → x < 0x208 + 1 → ¬(e.dst ≤ x ∧ x < e.dst + e.outLen)) := by
  have hd : busyBuffer.duty = [⟨0x100, 3, 0x200, 8⟩] := by decide
  rw [hd]
  refine ⟨⟨by decide, by decide, by decide, ?_⟩, ⟨by decide, ?_⟩, ⟨by decide, ?_⟩⟩ <;>
    (intro e he x h1 h2; rw [List.mem_singleton] at he; subst he; simp only; omega)

/-- For `ObservedCompletionEndsTheDuty`: a STATUS read after completion, and the two other cases. -/
theorem witness_observation :
    nextWith (takeTurn (.regRead 32 0x04) { busyBuffer with status := 0x00000002#32 })
      (fun t => t.duty == []) = true ∧
    { busyBuffer with status := 0x00000002#32 }.busy = false ∧
    { busyBuffer with status := 0x00000002#32 }.done = true ∧
    nextWith (takeTurn (.regRead 32 0x04) busyBuffer) (fun t => t.duty != []) = true ∧
    nextWith (takeTurn (.regRead 32 0x34) { busyBuffer with status := 0x00000002#32 })
      (fun t => t.duty != []) = true := by decide

end Sys2Proof.Tests
end

/-! The byte order of data (20_memory.md R31): words and blocks on numbers, and the encode and decode
as each other's inverses. Equality of words and bytes is shown on numbers, from the two `toNat` rules. -/
namespace Sys2Proof.Machine

/-- A byte appended below a bit vector is a base 256 digit. -/
theorem toNat_append_byte {n : Nat} (x : BitVec n) (b : Byte) :
    (x ++ b).toNat = x.toNat * 2 ^ 8 + b.toNat := by
  rw [BitVec.toNat_append, ← Nat.shiftLeft_add_eq_or_of_lt b.isLt, Nat.shiftLeft_eq]

theorem toNat_le32 (b0 b1 b2 b3 : Byte) :
    (le32 b0 b1 b2 b3).toNat =
      b0.toNat + b1.toNat * 2 ^ 8 + b2.toNat * 2 ^ 16 + b3.toNat * 2 ^ 24 := by
  simp only [le32, toNat_append_byte]
  omega

theorem toNat_wordByte (w : Word) (k : Nat) :
    (wordByte w k).toNat = w.toNat / 2 ^ (8 * k) % 2 ^ 8 := by
  simp only [wordByte, BitVec.extractLsb'_toNat, Nat.shiftRight_eq_div_pow]

/-- Decoding the four bytes of a word gives the word back: its digits in base 256 sum to it. -/
theorem le32_wordByte (w : Word) :
    le32 (wordByte w 0) (wordByte w 1) (wordByte w 2) (wordByte w 3) = w := by
  apply BitVec.eq_of_toNat_eq
  have hw := w.isLt
  simp only [toNat_le32, toNat_wordByte]
  omega

/-- Encoding a decoded word gives its bytes back: each is a digit in base 256. -/
theorem wordByte_le32 (b : Nat → Byte) (k : Nat) (hk : k < 4) :
    wordByte (le32 (b 0) (b 1) (b 2) (b 3)) k = b k := by
  apply BitVec.eq_of_toNat_eq
  have h0 := (b 0).isLt
  have h1 := (b 1).isLt
  have h2 := (b 2).isLt
  have h3 := (b 3).isLt
  rw [toNat_wordByte, toNat_le32]
  interval_cases k <;> omega

/-- Byte `j` of a decoded block comes from `v0` for `j < 4` and from `v1` otherwise. -/
theorem blockByte_blockOfBytes (b : Nat → Byte) (j : Nat) (hj : j < 8) :
    blockByte (blockOfBytes b) j = b j := by
  unfold blockByte
  split
  next h => exact wordByte_le32 b j h
  next h =>
    have hv1 := wordByte_le32 (fun i => b (4 + i)) (j - 4) (by omega)
    rwa [Nat.add_sub_cancel' (by omega : 4 ≤ j)] at hv1

theorem blockOfBytes_blockByte (b : Block) : blockOfBytes (blockByte b) = b := by
  have hv0 : (blockOfBytes (blockByte b)).v0 = b.v0 := le32_wordByte b.v0
  have hv1 : (blockOfBytes (blockByte b)).v1 = b.v1 := le32_wordByte b.v1
  exact congrArg₂ Block.mk hv0 hv1

end Sys2Proof.Machine

namespace Sys2Proof.Proofs
open Sys2Proof.Machine

/-- Settles O14 (R31), from the rules of `le32` and `wordByte` on numbers and the two inverses. That
v0 takes the lower four addresses is the model's definition of a block, the spec's reading N4, D27. -/
theorem byteOrderIsLittleEndian : Obligations.ByteOrderIsLittleEndian :=
  ⟨toNat_le32, fun w k _ => toNat_wordByte w k, le32_wordByte, fun _ => rfl,
    blockByte_blockOfBytes, blockOfBytes_blockByte⟩

end Sys2Proof.Proofs

/-! The decoder on numbers (30_encoding.md R47): each bit field as an arithmetic condition on the word,
and what the decoder answers in those terms. -/
namespace Sys2Proof

theorem commandRsvd_eq_zero_iff (c : Word) : commandRsvd c = 0#29 ↔ c.toNat / 8 = 0 := by
  have hc := c.isLt
  rw [commandRsvd, ← BitVec.toNat_inj, BitVec.extractLsb'_toNat, Nat.shiftRight_eq_div_pow,
    BitVec.toNat_ofNat]
  omega

/-- Bit `i` of a word is a digit in base 2. -/
theorem getLsbD_eq_true_iff (c : Word) (i : Nat) :
    c.getLsbD i = true ↔ c.toNat / 2 ^ i % 2 = 1 := by
  rw [BitVec.getLsbD, Nat.testBit_eq_decide_div_mod_eq, decide_eq_true_iff]

theorem commandStart_iff (c : Word) : commandStart c = true ↔ c.toNat / 4 % 2 = 1 :=
  getLsbD_eq_true_iff c 2

theorem commandMode_iff (c : Word) : commandMode c = true ↔ c.toNat / 2 % 2 = 1 :=
  getLsbD_eq_true_iff c 1

theorem commandDir_iff (c : Word) : commandDir c = true ↔ c.toNat % 2 = 1 := by
  have h := getLsbD_eq_true_iff c 0
  rwa [Nat.pow_zero, Nat.div_one] at h

/-- The decoder reads a command exactly from a legal word, and it is the one MODE and DIR name. -/
theorem decode_eq_ok_iff (c : Word) (i : Instr) :
    decode c = .ok i ↔
      (c.toNat / 8 = 0 ∧ c.toNat / 4 % 2 = 1) ∧ commandOf (commandMode c) (commandDir c) = i := by
  rw [← commandRsvd_eq_zero_iff, ← commandStart_iff, decode]
  split_ifs with hrsvd hstart
  · simp [hrsvd]
  · simp [hstart]
  · simp [not_not.1 hrsvd, Bool.eq_true_of_not_eq_false hstart]

theorem exists_decode_ok_iff (c : Word) :
    (∃ i, decode c = .ok i) ↔ c.toNat / 8 = 0 ∧ c.toNat / 4 % 2 = 1 := by
  simp only [decode_eq_ok_iff, exists_and_left, exists_eq', and_true]

/-- A word with a reserved bit set or START clear is rejected (R51). -/
theorem decode_error_of_illegal (c : Word) (h : c.toNat / 8 ≠ 0 ∨ c.toNat / 4 % 2 ≠ 1) :
    ∃ r, decode c = .error r := by
  cases hd : decode c with
  | error r => exact ⟨r, rfl⟩
  | ok i =>
    obtain ⟨hrsvd, hstart⟩ := (exists_decode_ok_iff c).1 ⟨i, hd⟩
    exact (h.elim (· hrsvd) (· hstart)).elim

end Sys2Proof

/-! What a MODE and a DIR bit name, the acceptance of a word by the host's CMD write, and what an
illegal word does on its way through the engine (30_encoding.md R47, R51, 60_exceptions.md R71). -/
namespace Sys2Proof.Machine

@[simp] theorem commandIsBuffer_commandOf (mode dir : Bool) :
    commandIsBuffer (commandOf mode dir) = mode := by
  cases mode <;> cases dir <;> rfl

@[simp] theorem commandIsDecrypt_commandOf (mode dir : Bool) :
    commandIsDecrypt (commandOf mode dir) = dir := by
  cases mode <;> cases dir <;> rfl

/-- While the engine is idle, the host's write of a word to CMD is its acceptance (R36, R71). -/
theorem takeTurn_cmdWrite_of_idle (s : State) (c : Word) (hs : s.busy = false) :
    takeTurn (.regWrite 32 (s.regBase + 0x00) c) s = .next (s.accept c) := by
  have hw : s.hostWrite .cmd c = s.accept c := by simp [State.hostWrite, hs, State.writeSlot]
  rw [← hw]
  exact takeTurn_regWrite_slot s .cmd c

/-- The acceptance of a rejected word adds no duty: only PEND and STATUS change (R71). -/
theorem State.accept_of_decode_error (s : State) (c : Word) (r : DecodeReject)
    (h : decode c = .error r) :
    s.accept c = { s with pend := c, status := statusAccepted } := by
  simp only [State.accept, State.dutyAfter, h]

/-- The engine ends a rejected word with IllegalCommand (R51, R73). -/
theorem engineTurn_of_decode_error (s : State) (r : DecodeReject) (hs : s.busy = true)
    (h : decode s.pend = .error r) : engineTurn s = .next (s.raise .illegalCommand) := by
  simp only [engineTurn, hs, if_true, engineStep, h]

/-- IllegalCommand raised right after an acceptance: DONE 1, ERR 3 and every other bit 0 (R76). -/
theorem statusCompleted_illegalCommand_accepted :
    statusCompleted (endCode (some .illegalCommand)) statusAccepted = 0x00000032#32 := by decide

end Sys2Proof.Machine

namespace Sys2Proof.Proofs
open Sys2Proof.Machine

/-- Settles O1 (R47): legality and the command's kind are read off the decoder on numbers. -/
theorem legalWordsAreTheFourCommands : Obligations.LegalWordsAreTheFourCommands := by
  intro c
  refine ⟨exists_decode_ok_iff c, ?_, fun i hi => ?_⟩
  · rw [exists_decode_ok_iff]
    omega
  · obtain ⟨_, rfl⟩ := (decode_eq_ok_iff c i).1 hi
    rw [commandIsBuffer_commandOf, commandIsDecrypt_commandOf]
    exact ⟨commandMode_iff c, commandDir_iff c⟩

/-- Settles O4 (R51): the decoder rejects the word, so its acceptance touches no duty and the engine's
turn raises IllegalCommand, which writes STATUS alone. -/
theorem illegalWordEndsWithCodeThree : Obligations.IllegalWordEndsWithCodeThree := by
  intro s c hs hc
  obtain ⟨r, hr⟩ := decode_error_of_illegal c hc
  constructor
  · rw [takeTurn_cmdWrite_of_idle s c hs, State.accept_of_decode_error s c r hr, statusAccepted]
  · have hbusy : State.busy { s with pend := c, status := 0x00000001#32 } = true :=
      statusBusy_accepted
    rw [engineTurn_of_decode_error _ r hbusy hr, State.raise, State.endCommand]
    exact congrArg (fun st => Host.Outcome.next { s with pend := c, status := st })
      statusCompleted_illegalCommand_accepted

end Sys2Proof.Proofs

/-! The Block Transform's equations (40_block_transform.md R54 to R56): the mixing function on
numbers, one round half by half, and the sum a round runs with. -/
namespace Sys2Proof.Machine

@[simp] theorem Work.block_v0 (w : Work) : w.block.v0 = w.v0 := rfl
@[simp] theorem Work.block_v1 (w : Work) : w.block.v1 = w.v1 := rfl

/-- F on numbers (R54): the shifts are a product and a quotient. -/
theorem toNat_mix (x s ka kb : Word) :
    (mix x s ka kb).toNat =
      (((x.toNat * 16 % 2 ^ 32 + ka.toNat) % 2 ^ 32) ^^^ ((x.toNat + s.toNat) % 2 ^ 32)) ^^^
        ((x.toNat / 32 + kb.toNat) % 2 ^ 32) := by
  simp only [mix, BitVec.toNat_xor, BitVec.toNat_add, BitVec.toNat_shiftLeft,
    BitVec.toNat_ushiftRight, Nat.shiftLeft_eq, Nat.shiftRight_eq_div_pow, Nat.reducePow]

theorem encryptRound_sum (k : Key) (w : Work) : (encryptRound k w).sum = w.sum + delta := rfl

theorem encryptRound_v0 (k : Key) (w : Work) :
    (encryptRound k w).v0 = w.v0 + mix w.v1 (encryptRound k w).sum k.k0 k.k1 := rfl

/-- The v1 update uses the v0 just written (R55). -/
theorem encryptRound_v1 (k : Key) (w : Work) :
    (encryptRound k w).v1 =
      w.v1 + mix (encryptRound k w).v0 (encryptRound k w).sum k.k2 k.k3 := rfl

theorem decryptRound_v1 (k : Key) (w : Work) :
    (decryptRound k w).v1 = w.v1 - mix w.v0 w.sum k.k2 k.k3 := rfl

/-- The v0 update uses the v1 just written (R56). -/
theorem decryptRound_v0 (k : Key) (w : Work) :
    (decryptRound k w).v0 = w.v0 - mix (decryptRound k w).v1 w.sum k.k0 k.k1 := rfl

theorem decryptRound_sum (k : Key) (w : Work) : (decryptRound k w).sum = w.sum - delta := rfl

/-- The sum of `r` rounds of encryption is `r * DELTA` (R55). -/
theorem sum_encryptRounds_start (k : Key) (b : Block) (r : Nat) :
    (repeatRound (encryptRound k) r (encryptStart b)).sum = BitVec.ofNat 32 r * delta := by
  rw [sum_encryptRounds, encryptStart, BitVec.zero_add]

/-- The terminal sum of encryption is the sum decryption starts from (R5, R55). -/
theorem rounds_mul_delta : BitVec.ofNat 32 rounds * delta = decryptSum := by decide

/-- With `r` of the rounds of decryption done, the sum is that of the rounds that remain (R56). -/
theorem sum_decryptRounds_start (k : Key) (b : Block) (r : Nat) (hr : r ≤ rounds) :
    (repeatRound (decryptRound k) r (decryptStart b)).sum =
      BitVec.ofNat 32 (rounds - r) * delta := by
  have hsplit : BitVec.ofNat 32 (rounds - r) * delta + BitVec.ofNat 32 r * delta = decryptSum := by
    rw [← BitVec.add_mul, ← BitVec.ofNat_add, Nat.sub_add_cancel hr, rounds_mul_delta]
  rw [sum_decryptRounds, decryptStart, ← hsplit, BitVec.add_sub_cancel]

end Sys2Proof.Machine

/-! The two block functions undo each other (R57): a round undoes a round on the halves and the sum,
whatever the round counter holds, and so `n` rounds undo `n` rounds. -/
namespace Sys2Proof.Machine

/-- What a round works on: the halves and the sum. The round counter is left out, since it goes up
in both directions and no round reads it. -/
def Work.words (w : Work) : Block × Word := (w.block, w.sum)

theorem Work.words_eq_iff (w u : Work) :
    w.words = u.words ↔ w.v0 = u.v0 ∧ w.v1 = u.v1 ∧ w.sum = u.sum := by
  simp only [words, block, Prod.mk.injEq, Block.mk.injEq, and_assoc]

/-- A round that does not read the round counter. -/
def IgnoresCounter (f : Work → Work) : Prop :=
  ∀ w u : Work, w.words = u.words → (f w).words = (f u).words

theorem encryptRound_ignoresCounter (k : Key) : IgnoresCounter (encryptRound k) := by
  intro w u h
  obtain ⟨hv0, hv1, hsum⟩ := (Work.words_eq_iff w u).1 h
  simp only [Work.words, Work.block, encryptRound, hv0, hv1, hsum]

theorem decryptRound_ignoresCounter (k : Key) : IgnoresCounter (decryptRound k) := by
  intro w u h
  obtain ⟨hv0, hv1, hsum⟩ := (Work.words_eq_iff w u).1 h
  simp only [Work.words, Work.block, decryptRound, hv0, hv1, hsum]

theorem IgnoresCounter.repeatRound {f : Work → Work} (hf : IgnoresCounter f) (n : Nat) :
    IgnoresCounter (repeatRound f n) := by
  induction n with
  | zero => exact fun _ _ h => h
  | succ n ih => exact fun w u h => ih _ _ (hf w u h)

/-- Decryption subtracts what encryption added: v1's mixture, of the new v0, and then v0's, of the
restored v1, under the same sum. -/
theorem words_decryptRound_encryptRound (k : Key) (w : Work) :
    (decryptRound k (encryptRound k w)).words = w.words := by
  rw [Work.words_eq_iff]
  have hv1 : (decryptRound k (encryptRound k w)).v1 = w.v1 := by
    rw [decryptRound_v1, encryptRound_v1, BitVec.add_sub_cancel]
  refine ⟨?_, hv1, ?_⟩
  · rw [decryptRound_v0, hv1, encryptRound_v0, BitVec.add_sub_cancel]
  · rw [decryptRound_sum, encryptRound_sum, BitVec.add_sub_cancel]

/-- Encryption adds what decryption subtracted, in the reverse order: the sum first, then v0, then
v1. -/
theorem words_encryptRound_decryptRound (k : Key) (w : Work) :
    (encryptRound k (decryptRound k w)).words = w.words := by
  rw [Work.words_eq_iff]
  have hsum : (encryptRound k (decryptRound k w)).sum = w.sum := by
    rw [encryptRound_sum, decryptRound_sum, BitVec.sub_add_cancel]
  have hv0 : (encryptRound k (decryptRound k w)).v0 = w.v0 := by
    rw [encryptRound_v0, hsum, decryptRound_v0, BitVec.sub_add_cancel]
  refine ⟨hv0, ?_, hsum⟩
  rw [encryptRound_v1, hsum, hv0, decryptRound_v1, BitVec.sub_add_cancel]

/-- Rounds that undo one another one at a time do so `n` at a time: the last `f` meets the first
`g`. -/
theorem words_repeatRound_inverse {f g : Work → Work} (hg : IgnoresCounter g)
    (hgf : ∀ w, (g (f w)).words = w.words) (n : Nat) (w : Work) :
    (repeatRound g n (repeatRound f n w)).words = w.words := by
  induction n with
  | zero => rfl
  | succ n ih =>
    calc (repeatRound g (n + 1) (repeatRound f (n + 1) w)).words
        = (repeatRound g n (g (f (repeatRound f n w)))).words := by
          rw [repeatRound_succ f, repeatRound]
      _ = (repeatRound g n (repeatRound f n w)).words := hg.repeatRound n _ _ (hgf _)
      _ = w.words := ih

/-- Undoing the rounds from `start`, in a state `w` with their words, gives back `start`'s block. -/
theorem block_repeatRound_inverse {f g : Work → Work} (hg : IgnoresCounter g)
    (hgf : ∀ w, (g (f w)).words = w.words) (n : Nat) (start w : Work)
    (hw : w.words = (repeatRound f n start).words) : (repeatRound g n w).block = start.block :=
  congrArg Prod.fst ((hg.repeatRound n _ _ hw).trans (words_repeatRound_inverse hg hgf n start))

theorem words_encryptStart (w : Work) (hsum : w.sum = 0#32) :
    (encryptStart w.block).words = w.words := congrArg (Prod.mk w.block) hsum.symm

theorem words_decryptStart (w : Work) (hsum : w.sum = decryptSum) :
    (decryptStart w.block).words = w.words := congrArg (Prod.mk w.block) hsum.symm

/-- Decryption starts where encryption ends: at its block, and at its terminal sum. -/
theorem decryptBlock_encryptBlock (k : Key) (b : Block) :
    decryptBlock k (encryptBlock k b) = b := by
  have hsum := (sum_encryptRounds_start k b rounds).trans rounds_mul_delta
  rw [decryptBlock_eq, encryptBlock_eq]
  exact block_repeatRound_inverse (decryptRound_ignoresCounter k)
    (words_decryptRound_encryptRound k) rounds (encryptStart b) _ (words_decryptStart _ hsum)

/-- Encryption starts where decryption ends: at its block, and at sum 0. -/
theorem encryptBlock_decryptBlock (k : Key) (b : Block) :
    encryptBlock k (decryptBlock k b) = b := by
  have hsum := sum_decryptRounds_start k b rounds le_rfl
  rw [Nat.sub_self, BitVec.zero_mul] at hsum
  rw [encryptBlock_eq, decryptBlock_eq]
  exact block_repeatRound_inverse (encryptRound_ignoresCounter k)
    (words_encryptRound_decryptRound k) rounds (decryptStart b) _ (words_encryptStart _ hsum)

end Sys2Proof.Machine

/-! The block commands, said once for both (R59, R60): a command whose effect is to apply a block
function to V0, V1, for a variable function, so that no proof meets the rounds. -/
namespace Sys2Proof.Machine

/-- The command `i` applies the block function `f` to V0, V1 under K0 to K3. -/
def AppliesToBlock (i : Instr) (f : Key → Block → Block) : Prop :=
  commandIsBuffer i = false ∧ ∀ s : State, commandEffect i s = s.setBlock (f s.key s.block)

theorem encBlock_appliesToBlock : AppliesToBlock .encBlock encryptBlock := ⟨rfl, fun _ => rfl⟩

theorem decBlock_appliesToBlock : AppliesToBlock .decBlock decryptBlock := ⟨rfl, fun _ => rfl⟩

/-- The state a block command leaves when it completes with the block `b` (R59, R60, R74). -/
def State.completeWithBlock (b : Block) (s : State) : State :=
  (s.setBlock b).releaseHidden.endCommand none

@[simp] theorem State.completeWithBlock_keylen (b : Block) (s : State) :
    (s.completeWithBlock b).keylen = s.keylen := rfl
@[simp] theorem State.completeWithBlock_key (b : Block) (s : State) :
    (s.completeWithBlock b).key = s.key := rfl
@[simp] theorem State.completeWithBlock_block (b : Block) (s : State) :
    (s.completeWithBlock b).block = b := rfl

section
variable {i j : Instr} {f g : Key → Block → Block}

/-- With a key a block command completes with its function of the old block. -/
theorem AppliesToBlock.exec_eq (hi : AppliesToBlock i f) (s : State) (hk : s.keylen = 4#32) :
    exec i s = .next (s.completeWithBlock (f s.key s.block)) := by
  obtain ⟨hbuf, heff⟩ := hi
  rw [exec_valid i s ((validateInstr_block i s hbuf).2 hk), heff, State.completeWithBlock]

/-- The result, STATUS and the frame of a completed block command. -/
theorem AppliesToBlock.completes (hi : AppliesToBlock i f) (s : State) (hk : s.keylen = 4#32) :
    ∃ t, exec i s = .next t ∧ (⟨t.v0, t.v1⟩ : Block) = f ⟨s.k0, s.k1, s.k2, s.k3⟩ ⟨s.v0, s.v1⟩ ∧
      statusEnds 0 s.status t.status ∧ blockFrame s t :=
  ⟨_, hi.exec_eq s hk, State.completeWithBlock_block _ s,
    statusEnds_endCommand none (s.setBlock _).releaseHidden, blockFrame_setBlock _ none s⟩

/-- A block command, then one that applies the inverse function: the key is kept in between, so the
second restores V0 and V1. -/
theorem AppliesToBlock.restores (hi : AppliesToBlock i f) (hj : AppliesToBlock j g)
    (hgf : ∀ k b, g k (f k b) = b) (s : State) (hk : s.keylen = 4#32) :
    ∃ t u, exec i s = .next t ∧ exec j t = .next u ∧ u.v0 = s.v0 ∧ u.v1 = s.v1 := by
  refine ⟨_, _, hi.exec_eq s hk, hj.exec_eq _ hk, ?_⟩
  rw [State.completeWithBlock_key, State.completeWithBlock_block, hgf]
  exact ⟨rfl, rfl⟩

end

/-- Every command without a key ends with InvalidKeyLength, whatever its other operands (R73). -/
theorem validateInstr_of_keylen_ne (i : Instr) (s : State) (hk : s.keylen ≠ 4#32) :
    validateInstr i s = some .invalidKeyLength := if_pos hk

/-- Without a key a command writes STATUS alone, with code 1 (R73, R75). -/
theorem exec_of_keylen_ne (i : Instr) (s : State) (hk : s.keylen ≠ 4#32) :
    ∃ t, exec i s = .next t ∧ statusEnds 1 s.status t.status ∧ onlyStatusChanges s t :=
  ⟨_, exec_error i s .invalidKeyLength (validateInstr_of_keylen_ne i s hk),
    statusEnds_endCommand (some .invalidKeyLength) s, rfl⟩

set_option maxRecDepth 10000 in
/-- The rule's example (R59): the zero block under the zero key. -/
theorem encryptBlock_zero :
    encryptBlock ⟨0#32, 0#32, 0#32, 0#32⟩ ⟨0#32, 0#32⟩ = ⟨0x41EA3A0A#32, 0x94BAA940#32⟩ := by
  decide

end Sys2Proof.Machine

namespace Sys2Proof.Proofs
open Sys2Proof.Machine

/-- Settles O8 (R54): the terms on numbers, and the exclusive or on numbers is associative. -/
theorem mixComputesTheThreeTerms : Obligations.MixComputesTheThreeTerms := by
  intro x s ka kb
  exact ⟨toNat_mix x s ka kb, (toNat_mix x s ka kb).trans (Nat.xor_assoc _ _ _)⟩

/-- Settles O9 (R55): each round is one more `encryptRound` at the end, and the sum is known after
any number of them. -/
theorem encryptBlockIsThePseudocode : Obligations.EncryptBlockIsThePseudocode := by
  intro k b w
  have hnext (r : Nat) : w (r + 1) = encryptRound k (w r) := repeatRound_succ _ r _
  have hsum (r : Nat) : (w r).sum = BitVec.ofNat 32 r * delta := sum_encryptRounds_start k b r
  have hblock : encryptBlock k b = (w 32).block := encryptBlock_eq k b
  refine ⟨rfl, rfl, rfl, fun r => ?_, (hsum 32).trans rounds_mul_delta,
    by rw [hblock, Work.block_v0], by rw [hblock, Work.block_v1]⟩
  rw [hnext]
  exact ⟨encryptRound_sum k _, encryptRound_v0 k _, encryptRound_v1 k _, hsum r⟩

/-- Settles O10 (R56): likewise for `decryptRound`, with the sum of the rounds that remain. -/
theorem decryptBlockIsThePseudocode : Obligations.DecryptBlockIsThePseudocode := by
  intro k b w
  have hnext (r : Nat) : w (r + 1) = decryptRound k (w r) := repeatRound_succ _ r _
  have hsum (r : Nat) (hr : r ≤ 32) : (w r).sum = BitVec.ofNat 32 (32 - r) * delta :=
    sum_decryptRounds_start k b r hr
  have hblock : decryptBlock k b = (w 32).block := decryptBlock_eq k b
  refine ⟨rfl, rfl, rfl, fun r => ?_, fun j h1 h32 => ?_, ?_, by rw [hblock, Work.block_v0],
    by rw [hblock, Work.block_v1]⟩
  · rw [hnext]
    exact ⟨decryptRound_v1 k _, decryptRound_v0 k _, decryptRound_sum k _⟩
  · rw [hsum (j - 1) (by omega), delta, show 32 - (j - 1) = 33 - j by omega]
  · rw [hsum 32 le_rfl, Nat.sub_self, BitVec.zero_mul]

/-- Settles O11 (R57): decryption is a left and a right inverse of encryption. -/
theorem decryptAndEncryptAreInverse : Obligations.DecryptAndEncryptAreInverse := fun k =>
  ⟨decryptBlock_encryptBlock k, encryptBlock_decryptBlock k,
    Function.bijective_iff_has_inverse.2
      ⟨decryptBlock k, decryptBlock_encryptBlock k, encryptBlock_decryptBlock k⟩,
    fun w => Prod.mk.inj (words_decryptRound_encryptRound k w)⟩

/-- Settles O12 (R59): ENC_BLOCK applies EncryptBlock to V0, V1, and needs a key as every command
does. -/
theorem encBlockEncryptsTheBlock : Obligations.EncBlockEncryptsTheBlock :=
  ⟨rfl, encryptBlock_zero, by decide, fun s =>
    ⟨encBlock_appliesToBlock.completes s, exec_of_keylen_ne .encBlock s⟩⟩

/-- Settles O13 (R60): as for ENC_BLOCK, and the block functions undo each other under the key the
first command keeps. -/
theorem decBlockDecryptsTheBlock : Obligations.DecBlockDecryptsTheBlock := by
  refine ⟨rfl, ?_, fun s => ⟨decBlock_appliesToBlock.completes s,
    exec_of_keylen_ne .decBlock s, fun hk => ⟨?_, ?_⟩⟩⟩
  · rw [← encryptBlock_zero, decryptBlock_encryptBlock]
  · exact encBlock_appliesToBlock.restores decBlock_appliesToBlock decryptBlock_encryptBlock s hk
  · exact decBlock_appliesToBlock.restores encBlock_appliesToBlock encryptBlock_decryptBlock s hk

end Sys2Proof.Proofs

/-! The buffer commands, said once for both (R61 to R66): a command whose effect is to apply a block
function to the blocks of its buffer, for a variable function, so that no proof meets the rounds. -/
namespace Sys2Proof.Machine

/-- The command `i` applies the block function `f` to its buffer under K0 to K3. -/
def AppliesToBuffer (i : Instr) (f : Key → Block → Block) : Prop :=
  commandIsBuffer i = true ∧ ∀ s : State, commandEffect i s = codecEffect i f s

theorem encBuf_appliesToBuffer : AppliesToBuffer .encBuf encryptBlock := ⟨rfl, fun _ => rfl⟩

theorem decBuf_appliesToBuffer : AppliesToBuffer .decBuf decryptBlock := ⟨rfl, fun _ => rfl⟩

/-- The blocks a buffer command processes fit in its output (R61, R62). -/
theorem mul_blockCount_le_outLength (i : Instr) (len : Nat) :
    8 * blockCount i len ≤ outLength i len := by
  unfold blockCount outLength
  split
  · exact Nat.mul_div_le len 8
  · exact le_rfl

/-- A validated buffer command has no partial overlap (R73). -/
theorem rangesApart_of_valid (i : Instr) (s : State) (hbuf : commandIsBuffer i = true)
    (hv : validateInstr i s = none) :
    rangesApart (bufferExtent i s).src (bufferExtent i s).len (bufferExtent i s).dst
      (bufferExtent i s).outLen := by
  cases i with
  | encBlock | decBlock => cases hbuf
  | encBuf =>
    obtain ⟨-, -, -, -, hapart⟩ := (validateInstr_encBuf s).1 hv
    exact hapart
  | decBuf =>
    obtain ⟨-, -, -, -, hapart⟩ := (validateInstr_decBuf s).1 hv
    exact hapart

section
variable {i : Instr} {f : Key → Block → Block}

/-- The data memory a validated buffer command leaves (R65, R72). -/
theorem AppliesToBuffer.mem_eq (hi : AppliesToBuffer i f) (s t : State)
    (hv : validateInstr i s = none) (ht : exec i s = .next t) :
    t.mem = codecLoop (f s.key) (bufferExtent i s) (blockCount i s.len.toNat) 0 s.mem := by
  obtain ⟨-, heff⟩ := hi
  rw [exec_valid i s hv, heff] at ht
  obtain rfl := Host.Outcome.next.inj ht
  rfl

/-- Byte `j` of output block `n` is byte `j` of the block function applied, under the key, to input
block `n` (R63 to R65). -/
theorem AppliesToBuffer.read_output (hi : AppliesToBuffer i f) (s t : State)
    (hv : validateInstr i s = none) (ht : exec i s = .next t) (n j : Nat)
    (hn : n < blockCount i s.len.toNat) (hj : j < 8) :
    Memory.read t.mem (s.dst.toNat + 8 * n + j) = blockByte (f s.key (inputBlock s n)) j := by
  have hfit : 8 * (0 + blockCount i s.len.toNat) ≤ (bufferExtent i s).outLen := by
    rw [Nat.zero_add]
    exact mul_blockCount_le_outLength i s.len.toNat
  rw [hi.mem_eq s t hv ht, ← readBlock_eq_inputBlock i s n]
  exact read_codecLoop_inside (f s.key) (bufferExtent i s) _ 0 s.mem n j
    (rangesApart_of_valid i s hi.1 hv) hfit ⟨n.zero_le, by omega⟩ hj

/-- An output block is a function of the key and its own input block (R69). -/
theorem AppliesToBuffer.read_output_congr (hi : AppliesToBuffer i f) (s s' t t' : State)
    (n n' : Nat) (hv : validateInstr i s = none) (hv' : validateInstr i s' = none)
    (hkey : s.key = s'.key) (ht : exec i s = .next t) (ht' : exec i s' = .next t')
    (hn : n < blockCount i s.len.toNat) (hn' : n' < blockCount i s'.len.toNat)
    (hblock : inputBlock s n = inputBlock s' n') (j : Nat) (hj : j < 8) :
    Memory.read t.mem (s.dst.toNat + 8 * n + j) =
      Memory.read t'.mem (s'.dst.toNat + 8 * n' + j) := by
  rw [hi.read_output s t hv ht n j hn hj, hi.read_output s' t' hv' ht' n' j hn' hj, hkey, hblock]

end

end Sys2Proof.Machine

namespace Sys2Proof.Proofs
open Sys2Proof.Machine

/-- Settles O20 (R69): readiness is validation, and the output bytes of either command are read off
the key and the input block. -/
theorem equalBlocksGiveEqualOutput : Obligations.EqualBlocksGiveEqualOutput :=
  ⟨fun s s' t t' i j hs hs' => encBuf_appliesToBuffer.read_output_congr s s' t t' i j
      ((validateInstr_encBuf s).2 hs) ((validateInstr_encBuf s').2 hs'),
    fun s s' t t' i j hs hs' => decBuf_appliesToBuffer.read_output_congr s s' t t' i j
      ((validateInstr_decBuf s).2 hs) ((validateInstr_decBuf s').2 hs')⟩

end Sys2Proof.Proofs

/-! The order of the checks on numbers (60_exceptions.md R73, R77): the code a command ends with is
the spec's first failing check, for a word that decodes and for one that is rejected. -/
namespace Sys2Proof

/-- A word that decodes to a command is the command's word in the table (R47, R50). -/
theorem eq_encode_of_decode_ok (c : Word) (i : Instr) (h : decode c = .ok i) : c = encode i := by
  obtain ⟨⟨hrsvd, hstart⟩, rfl⟩ := (decode_eq_ok_iff c i).1 h
  have hword : c = 4#32 ∨ c = 5#32 ∨ c = 6#32 ∨ c = 7#32 := by
    simp only [← BitVec.toNat_inj, BitVec.toNat_ofNat]
    omega
  rcases hword with rfl | rfl | rfl | rfl <;> rfl

end Sys2Proof

namespace Sys2Proof.Machine

/-- The code of a list of checks is that of the first check that fails. -/
theorem toNat_endCode_ite (p : Prop) [Decidable p] (e : ErrorKind) (rest : Option ErrorKind) :
    (endCode (if p then some e else rest)).toNat =
      if p then (errorCode e).toNat else (endCode rest).toNat := by
  split <;> rfl

theorem keylen_toNat_ne_four_iff (s : State) : s.keylen.toNat ≠ 4 ↔ s.keylen ≠ 4#32 :=
  not_congr (BitVec.toNat_inj (y := 4#32))

theorem Extent.faults_iff (e : Extent) (memSize : Nat) :
    e.faults memSize = true ↔
      2 ^ 32 ≤ e.outLen ∨ memSize < e.src + e.len ∨ memSize < e.dst + e.outLen :=
  decide_eq_true_iff

theorem Extent.overlaps_iff (e : Extent) :
    e.overlaps = true ↔
      0 < e.len ∧ e.src ≠ e.dst ∧ e.src < e.dst + e.outLen ∧ e.dst < e.src + e.len :=
  decide_eq_true_iff

/-- The checks on a buffer command's operands, as codes (R73, R77). -/
theorem toNat_endCode_validateBuffer (i : Instr) (s : State) :
    (endCode (validateBuffer i s)).toNat =
      if commandIsDecrypt i = true ∧ s.len.toNat % 8 ≠ 0 then 2
      else if 2 ^ 32 ≤ outLength i s.len.toNat ∨ s.memSize < s.src.toNat + s.len.toNat ∨
          s.memSize < s.dst.toNat + outLength i s.len.toNat then 4
      else if 0 < s.len.toNat ∧ s.src ≠ s.dst ∧
          s.src.toNat < s.dst.toNat + outLength i s.len.toNat ∧
          s.dst.toNat < s.src.toNat + s.len.toNat then 5
      else 0 := by
  have hne : s.src.toNat ≠ s.dst.toNat ↔ s.src ≠ s.dst := not_congr BitVec.toNat_inj
  simp only [validateBuffer, toNat_endCode_ite, Extent.faults_iff, Extent.overlaps_iff,
    bufferExtent, hne]
  rfl

/-- The checks on a command, as codes: the key first (R73, R77). -/
theorem toNat_endCode_validateInstr (i : Instr) (s : State) :
    (endCode (validateInstr i s)).toNat =
      if s.keylen.toNat ≠ 4 then 1
      else if commandIsBuffer i then (endCode (validateBuffer i s)).toNat else 0 := by
  rw [validateInstr, toNat_endCode_ite, apply_ite endCode, apply_ite BitVec.toNat]
  simp only [keylen_toNat_ne_four_iff]
  rfl

/-- On a command's word the spec's list of checks is the command's own (R73). -/
theorem firstError_encode (i : Instr) (s : State) :
    firstError (encode i) s = (endCode (validateInstr i s)).toNat := by
  rw [toNat_endCode_validateInstr, toNat_endCode_validateBuffer]
  cases i with
  | encBlock | decBlock | encBuf => rfl
  | decBuf => simp [firstError, encode, commandIsBuffer, commandIsDecrypt, outLength]

theorem validate_of_decode_ok (c : Word) (s : State) (i : Instr) (h : decode c = .ok i) :
    validate c s = validateInstr i s := by
  rw [validate, h]

theorem validate_of_decode_error (c : Word) (s : State) (r : DecodeReject)
    (h : decode c = .error r) : validate c s = some .illegalCommand := by
  rw [validate, h]

/-- The spec's list of checks gives the code of the machine's validation, for every word (R73). -/
theorem firstError_eq_validate (c : Word) (s : State) :
    firstError c s = (endCode (validate c s)).toNat := by
  cases hd : decode c with
  | ok i =>
    rw [validate_of_decode_ok c s i hd, eq_encode_of_decode_ok c i hd, firstError_encode]
  | error r =>
    have hillegal : ¬ ∃ i, decode c = .ok i := by simp [hd]
    rw [exists_decode_ok_iff] at hillegal
    rw [validate_of_decode_error c s r hd]
    exact if_pos (by omega)

/-- The engine's turn on a pending word: validation's error, which writes STATUS alone, or the
effect of a command and its completion (R72 to R76). -/
theorem engineTurn_of_busy (s : State) (hs : s.busy = true) :
    (∃ e, validate s.pend s = some e ∧ engineTurn s = .next (s.endCommand (some e))) ∨
    (validate s.pend s = none ∧ ∃ i, decode s.pend = .ok i ∧
      engineTurn s = .next ((commandEffect i s).releaseHidden.endCommand none)) := by
  obtain ⟨hidle, -⟩ | ⟨-, r, hd, ht⟩ | ⟨-, i, hd, ht⟩ := engineTurn_cases s
  · exact Bool.noConfusion (hs.symm.trans hidle)
  · exact .inl ⟨_, validate_of_decode_error s.pend s r hd, ht⟩
  · rw [validate_of_decode_ok s.pend s i hd, ht]
    obtain herror | ⟨hv, hexec⟩ := exec_cases i s
    · exact .inl herror
    · exact .inr ⟨hv, i, hd, hexec⟩

/-- While a command is in progress a host write, to CMD too, only sets WIGN (R38). -/
theorem State.hostWrite_of_busy (slot : Slot) (v : Word) (s : State) (hs : s.busy = true) :
    s.hostWrite slot v = { s with status := statusWriteIgnored s.status } := if_pos hs

end Sys2Proof.Machine

namespace Sys2Proof.Proofs
open Sys2Proof.Machine

/-- Settles O23 (R73, R75): the step is the engine's turn, which completes with the code of the
machine's validation, and that is the spec's first failing check. -/
theorem firstFailingCheckIsReported : Obligations.FirstFailingCheckIsReported := by
  intro s hs hturns
  have hstep : step s = engineTurn s := by rw [step, nextAction, hturns]
  rw [hstep, firstError_eq_validate]
  obtain ⟨e, hv, ht⟩ | ⟨hv, i, -, ht⟩ := engineTurn_of_busy s hs
  · rw [hv]
    exact ⟨_, ht, statusEnds_endCommand (some e) s, fun _ => rfl⟩
  · rw [hv]
    refine ⟨_, ht, ?_, fun hcode => absurd rfl hcode⟩
    have hends := statusEnds_endCommand none (commandEffect i s).releaseHidden
    rwa [State.releaseHidden_status, commandEffect_status] at hends

/-- Settles O25 (R71, R38): an idle CMD write is an acceptance, and a busy one only sets WIGN. -/
theorem cmdWriteIsAcceptedWhenIdle : Obligations.CmdWriteIsAcceptedWhenIdle := by
  intro s v
  constructor
  · exact fun hidle => ⟨_, takeTurn_cmdWrite_of_idle s v hidle, rfl⟩
  · intro hbusy
    refine ⟨_, takeTurn_regWrite_slot s .cmd v, ?_⟩
    rw [State.hostWrite_of_busy .cmd v s hbusy]
    exact ⟨rfl, (statusBusy_writeIgnored s.status).trans hbusy, statusWign_writeIgnored s.status⟩

end Sys2Proof.Proofs

/-! The encoder against the decoder (30_encoding.md R47, R50), for commands and for placed words. -/
namespace Sys2Proof

@[simp] theorem decode_encode (i : Instr) : decode (encode i) = .ok i := by
  cases i <;> decide

/-- A placed table word that names a command is, cut to 32 bits, the command's word (R48). -/
theorem ofNat_eq_encode_of_decodeTableWord (nbits w : Nat) (i : Instr)
    (h : decodeTableWord nbits w = some i) : BitVec.ofNat 32 (w % 2 ^ nbits) = encode i := by
  simp only [decodeTableWord] at h
  split at h
  · cases hd : decode (BitVec.ofNat 32 (w % 2 ^ nbits)) with
    | error r => rw [hd] at h; cases h
    | ok j =>
      rw [hd] at h
      obtain rfl : j = i := Option.some.inj h
      exact eq_encode_of_decode_ok _ _ hd
  · cases h

end Sys2Proof

/-! A step as the next agent's action (60_exceptions.md R78, log entry 5): whose turn it is, and the
state the action starts from. -/
namespace Sys2Proof.Machine

/-- The turn a step takes: the head of `turns`, and the engine's when there is none left. -/
def State.nextTurn (s : State) : Turn := s.turns.head?.getD .engine

/-- The state with its next turn taken off. -/
def State.popTurn (s : State) : State := { s with turns := s.turns.tail }

theorem State.nextTurn_of_nil (s : State) (h : s.turns = []) : s.nextTurn = .engine := by
  rw [nextTurn, h]; rfl

theorem State.nextTurn_of_cons (s : State) (τ : Turn) (rest : List Turn) (h : s.turns = τ :: rest) :
    s.nextTurn = τ := by
  rw [nextTurn, h]; rfl

theorem State.popTurn_of_nil (s : State) (h : s.turns = []) : s.popTurn = s := by
  rw [popTurn, h, List.tail_nil, ← h]

theorem State.popTurn_of_cons (s : State) (τ : Turn) (rest : List Turn) (h : s.turns = τ :: rest) :
    s.popTurn = { s with turns := rest } := by
  rw [popTurn, h, List.tail_cons]

theorem step_eq_takeTurn (s : State) : step s = takeTurn s.nextTurn s.popTurn := by
  obtain ⟨hnil, hstep⟩ | ⟨τ, rest, hcons, hstep⟩ := step_cases s
  · rw [hstep, s.nextTurn_of_nil hnil, s.popTurn_of_nil hnil, takeTurn]
  · rw [hstep, s.nextTurn_of_cons τ rest hcons, s.popTurn_of_cons τ rest hcons]

/-- The engine moves exactly when the next turn is its own (R72). -/
theorem State.engineMoves_iff (s : State) : s.engineMoves ↔ s.nextTurn = .engine := by
  unfold engineMoves nextTurn
  cases s.turns <;> simp

/-- A turn that is not the engine's is the head of `turns`. -/
theorem State.turns_eq_of_nextTurn (s : State) (τ : Turn) (h : s.nextTurn = τ)
    (hne : τ ≠ .engine) : ∃ rest, s.turns = τ :: rest := by
  cases hturns : s.turns with
  | nil => exact absurd (h.symm.trans (s.nextTurn_of_nil hturns)) hne
  | cons τ' rest => exact ⟨rest, by rw [← h, s.nextTurn_of_cons τ' rest hturns]⟩

theorem State.head?_eq_reset_iff (s : State) :
    s.turns.head? = some .reset ↔ s.nextTurn = .reset := by
  unfold nextTurn
  cases s.turns <;> simp

theorem engineTurn_of_idle (s : State) (hs : s.busy = false) : engineTurn s = .next s := by
  rw [engineTurn, hs]; rfl

theorem engineTurn_of_decode_ok (s : State) (i : Instr) (hs : s.busy = true)
    (hd : decode s.pend = .ok i) : engineTurn s = exec i s := by
  rw [engineTurn, engineStep, hs, hd]; rfl

/-- After an acceptance placed from outside the engine moves first (log entry 4). -/
theorem step_acceptNow (s : State) (c : Word) : step (s.acceptNow c) = engineTurn (s.accept c) := by
  rw [step_eq_takeTurn]
  cases hturns : s.turns with
  | nil =>
    have hnow : (s.acceptNow c).turns = [] := by simp [State.acceptNow, hturns]
    have hsame : s.acceptNow c = s.accept c := by
      simp only [State.acceptNow, State.accept, hturns]
    rw [State.nextTurn_of_nil _ hnow, State.popTurn_of_nil _ hnow, takeTurn, hsame]
  | cons τ rest =>
    have hnow : (s.acceptNow c).turns = .engine :: τ :: rest := by simp [State.acceptNow, hturns]
    rw [State.nextTurn_of_cons _ _ _ hnow, State.popTurn_of_cons _ _ _ hnow, takeTurn, ← hturns]
    rfl

end Sys2Proof.Machine

namespace Sys2Proof.Proofs
open Sys2Proof.Machine

/-- Settles O3 (R47, R50): the encoder is a right inverse of the decoder, and a decoded word is its
command's word. -/
theorem decodeAndEncodeAgree : Obligations.DecodeAndEncodeAgree := fun i _ c =>
  ⟨eq_encode_of_decode_ok c i, fun hc => by rw [hc, decode_encode]⟩

/-- Settles O2 (R50): the four words are those of the encoder's table. -/
theorem tableWordsDecode : Obligations.TableWordsDecode :=
  ⟨decode_encode .encBlock, decode_encode .decBlock, decode_encode .encBuf, decode_encode .decBuf⟩

/-- Settles O5 (R72): a step is its next turn, which is the engine's in the first two cases. -/
theorem stepRunsTheDecodedCommand : Obligations.StepRunsTheDecodedCommand := by
  have hturn (s : State) (τ : Turn) (rest : List Turn) (h : s.turns = τ :: rest) :
      step s = takeTurn τ { s with turns := rest } := by
    rw [step_eq_takeTurn, s.nextTurn_of_cons τ rest h, s.popTurn_of_cons τ rest h]
  refine ⟨fun s i hs hd => ⟨fun hnil => ?_, fun rest hcons => ?_⟩, hturn⟩
  · rw [step_eq_takeTurn, s.nextTurn_of_nil hnil, s.popTurn_of_nil hnil]
    exact engineTurn_of_decode_ok s i hs hd
  · rw [hturn s _ rest hcons]
    exact engineTurn_of_decode_ok _ i hs hd

/-- Settles O6 (R71, log entry 4): the engine moves right after the placed acceptance, and PEND then
holds the command's word. -/
theorem placedWordRunsNext : Obligations.PlacedWordRunsNext := by
  intro s nbits w i h
  rw [State.withFetchWord, ofNat_eq_encode_of_decodeTableWord nbits w i h, step_acceptNow]
  exact engineTurn_of_decode_ok _ i (s.busy_accept _) (decode_encode i)

/-- Settles O7 (R89). -/
theorem idleEngineKeepsEverything : Obligations.IdleEngineKeepsEverything := by
  refine fun s hs => ⟨engineTurn_of_idle s hs, fun hnil => ?_⟩
  rw [step_eq_takeTurn, s.nextTurn_of_nil hnil, s.popTurn_of_nil hnil]
  exact engineTurn_of_idle s hs

end Sys2Proof.Proofs

/-! What a turn can do, said once (60_exceptions.md R72 to R78, 20_memory.md R36 to R38): every fact
about all steps below goes through `step_acts`. -/
namespace Sys2Proof.Machine

/-- A buffer command is in progress and would pass every check (R72, R73, R92). -/
def State.runsBuffer (s : State) (i : Instr) : Prop :=
  s.busy = true ∧ decode s.pend = .ok i ∧ commandIsBuffer i = true ∧ validateInstr i s = none

/-- The actions of the agents that answer a next state, each with its guard. -/
inductive Acts (s : State) : Turn → State → Prop
  | idle (hs : s.busy = false) : Acts s .engine s
  | error (e : ErrorKind) (hs : s.busy = true) (hv : validate s.pend s = some e) :
    Acts s .engine (s.endCommand (some e))
  | complete (i : Instr) (hs : s.busy = true) (hd : decode s.pend = .ok i)
      (hv : validateInstr i s = none) :
    Acts s .engine ((commandEffect i s).releaseHidden.endCommand none)
  | ignoredWrite (slot : Slot) (v : Word) (hs : s.busy = true) :
    Acts s (.regWrite 32 (s.slotAddress slot) v) { s with status := statusWriteIgnored s.status }
  | accept (v : Word) (hs : s.busy = false) :
    Acts s (.regWrite 32 (s.regBase + 0x00) v) (s.accept v)
  | writeSlot (slot : Slot) (v : Word) (hs : s.busy = false) (hslot : slot ≠ .cmd) :
    Acts s (.regWrite 32 (s.slotAddress slot) v) (s.writeSlot slot v)
  | read (slot : Slot) : Acts s (.regRead 32 (s.slotAddress slot)) (s.hostRead slot)
  | memWrite (a : Nat) (bs : List Byte) (hin : a + bs.length ≤ s.memSize) :
    Acts s (.memWrite a bs) { s with mem := Memory.writeBytes s.mem a bs }
  | memRead (a n : Nat) :
    Acts s (.memRead a n)
      { s with responses := .bytes (Memory.readBytes s.mem a n) :: s.responses }
  | reset : Acts s .reset s.resetBlock

theorem engineTurn_acts (s t : State) (h : engineTurn s = .next t) : Acts s .engine t := by
  cases hs : s.busy with
  | false =>
    rw [engineTurn_of_idle s hs] at h
    obtain rfl := Host.Outcome.next.inj h
    exact .idle hs
  | true =>
    obtain ⟨e, hv, ht⟩ | ⟨hv, i, hd, ht⟩ := engineTurn_of_busy s hs
    · obtain rfl := Host.Outcome.next.inj (ht.symm.trans h)
      exact .error e hs hv
    · obtain rfl := Host.Outcome.next.inj (ht.symm.trans h)
      rw [validate_of_decode_ok s.pend s i hd] at hv
      exact .complete i hs hd hv

theorem hostRegWrite_acts (width address : Nat) (v : Word) (s t : State)
    (h : hostRegWrite width address v s = .next t) : Acts s (.regWrite width address v) t := by
  obtain ⟨slot, rfl, rfl, rfl⟩ := hostRegWrite_next width address v s t h
  obtain ⟨hs, hw⟩ | ⟨hs, hw⟩ := s.hostWrite_cases slot v
  · rw [hw]
    exact .ignoredWrite slot v hs
  · rw [hw]
    by_cases hslot : slot = .cmd
    · subst hslot
      exact .accept v hs
    · exact .writeSlot slot v hs hslot

theorem takeTurn_acts (τ : Turn) (s t : State) (h : takeTurn τ s = .next t) : Acts s τ t := by
  cases τ with
  | engine => exact engineTurn_acts s t h
  | regWrite width address v => exact hostRegWrite_acts width address v s t h
  | regRead width address =>
    obtain ⟨slot, rfl, rfl, rfl⟩ := hostRegRead_next width address s t h
    exact .read slot
  | memWrite a bs =>
    obtain ⟨hin, rfl⟩ := hostMemWrite_next a bs s t h
    exact .memWrite a bs hin
  | memRead a n =>
    obtain rfl := hostMemRead_next a n s t h
    exact .memRead a n
  | reset =>
    obtain rfl := Host.Outcome.next.inj h
    exact .reset

/-- A step is an action of the agent whose turn it is, from the state without that turn (R78). -/
theorem step_acts (s t : State) (h : step s = .next t) : Acts s.popTurn s.nextTurn t :=
  takeTurn_acts _ _ _ (step_eq_takeTurn s ▸ h)

/-- A command applies a block function, to V0, V1 or to its buffer (R50). -/
theorem appliesToBlock_or_buffer (i : Instr) :
    ∃ f, AppliesToBlock i f ∨ AppliesToBuffer i f := by
  cases i with
  | encBlock => exact ⟨_, .inl encBlock_appliesToBlock⟩
  | decBlock => exact ⟨_, .inl decBlock_appliesToBlock⟩
  | encBuf => exact ⟨_, .inr encBuf_appliesToBuffer⟩
  | decBuf => exact ⟨_, .inr decBuf_appliesToBuffer⟩

/-! An idle write leaves OUTLEN, data memory and the parameters alone, and STATUS too unless it is a
CMD write (R36). -/

@[simp] theorem State.writeSlot_outlen (slot : Slot) (v : Word) (s : State) :
    (s.writeSlot slot v).outlen = s.outlen := by cases slot <;> rfl
@[simp] theorem State.writeSlot_mem (slot : Slot) (v : Word) (s : State) :
    (s.writeSlot slot v).mem = s.mem := by cases slot <;> rfl
@[simp] theorem State.writeSlot_memTop (slot : Slot) (v : Word) (s : State) :
    (s.writeSlot slot v).memTop = s.memTop := by cases slot <;> rfl
@[simp] theorem State.writeSlot_regBase (slot : Slot) (v : Word) (s : State) :
    (s.writeSlot slot v).regBase = s.regBase := by cases slot <;> rfl

theorem State.writeSlot_status (slot : Slot) (v : Word) (s : State) (hslot : slot ≠ .cmd) :
    (s.writeSlot slot v).status = s.status := by
  cases slot with
  | cmd => exact absurd rfl hslot
  | _ => rfl

theorem State.busy_writeSlot (slot : Slot) (v : Word) (s : State) (hslot : slot ≠ .cmd) :
    (s.writeSlot slot v).busy = s.busy :=
  congrArg statusBusy (State.writeSlot_status slot v s hslot)

/-! Reset clears STATUS and keeps the parameters (R91). -/

@[simp] theorem State.resetBlock_status (s : State) : s.resetBlock.status = 0#32 := rfl
@[simp] theorem State.resetBlock_memTop (s : State) : s.resetBlock.memTop = s.memTop :=
  s.dropCommand_memTop
@[simp] theorem State.resetBlock_regBase (s : State) : s.resetBlock.regBase = s.regBase :=
  s.dropCommand_regBase

/-- Data memory after a reset: kept, or the running buffer command's output drawn (R92). -/
theorem State.dropCommand_mem (s : State) :
    (s.abandoned = none ∧ s.dropCommand.mem = s.mem) ∨
    ∃ i, s.runsBuffer i ∧ s.dropCommand.mem =
      Memory.drawBytes s.mem (bufferExtent i s).dst (bufferExtent i s).outLen s.draws := by
  obtain ⟨hnone, hdrop⟩ | ⟨e, hsome, hdrop⟩ := s.dropCommand_cases
  · exact .inl ⟨hnone, by rw [hdrop]⟩
  · obtain ⟨hs, i, hd, hbuf, hv, rfl⟩ := s.abandoned_some e hsome
    exact .inr ⟨i, ⟨hs, hd, hbuf, hv⟩, by rw [hdrop]⟩

/-! ### What a turn does to one part of the state -/

section
variable {s t : State} {τ : Turn}

/-- STATUS under a turn (R14): kept, cleared by a reset, written by a completion, by an ignored
write or by an acceptance. -/
theorem Acts.status_cases (h : Acts s τ t) :
    t.status = s.status ∨
    (τ = .reset ∧ t.status = 0#32) ∨
    (s.busy = true ∧ τ = .engine ∧ ∃ e, t.status = statusCompleted (endCode e) s.status) ∨
    (s.busy = true ∧ (∃ w a v, τ = .regWrite w a v) ∧
      t.status = statusWriteIgnored s.status) ∨
    (s.busy = false ∧ (∃ v, τ = .regWrite 32 (s.regBase + 0x00) v ∧ t.pend = v) ∧
      t.status = statusAccepted) := by
  cases h with
  | idle | memWrite | memRead => exact .inl rfl
  | error e hs => exact .inr (.inr (.inl ⟨hs, rfl, some e, rfl⟩))
  | complete i hs => exact .inr (.inr (.inl ⟨hs, rfl, none, by simp⟩))
  | ignoredWrite slot v hs => exact .inr (.inr (.inr (.inl ⟨hs, ⟨_, _, _, rfl⟩, rfl⟩)))
  | accept v hs => exact .inr (.inr (.inr (.inr ⟨hs, ⟨v, rfl, rfl⟩, rfl⟩)))
  | writeSlot slot v hs hslot => exact .inl (State.writeSlot_status slot v s hslot)
  | read slot => exact .inl (State.hostRead_status slot s)
  | reset => exact .inr (.inl ⟨rfl, rfl⟩)

/-- Data memory under a turn (R28 to R30, R92): kept, written by the host, written by a buffer
command, or drawn over a running buffer command's output. -/
theorem Acts.mem_cases (h : Acts s τ t) :
    t.mem = s.mem ∨
    (∃ a bs, τ = .memWrite a bs ∧ a + bs.length ≤ s.memSize ∧
      t.mem = Memory.writeBytes s.mem a bs) ∨
    (∃ i f, s.runsBuffer i ∧ τ = .engine ∧
      t.mem = codecLoop f (bufferExtent i s) (blockCount i s.len.toNat) 0 s.mem) ∨
    (∃ i, s.runsBuffer i ∧ τ = .reset ∧
      t.mem = Memory.drawBytes s.mem (bufferExtent i s).dst (bufferExtent i s).outLen s.draws) := by
  cases h with
  | idle | error | ignoredWrite | accept | memRead => exact .inl rfl
  | complete i hs hd hv =>
    rw [State.endCommand_mem, State.releaseHidden_mem]
    obtain ⟨f, ⟨-, heff⟩ | ⟨hbuf, heff⟩⟩ := appliesToBlock_or_buffer i
    · exact .inl (by rw [heff, State.setBlock_mem])
    · exact .inr (.inr (.inl ⟨i, f s.key, ⟨hs, hd, hbuf, hv⟩, rfl, by rw [heff, codecEffect_eq]⟩))
  | writeSlot slot v hs hslot => exact .inl (State.writeSlot_mem slot v s)
  | read slot => exact .inl (State.hostRead_mem slot s)
  | memWrite a bs hin => exact .inr (.inl ⟨a, bs, rfl, hin, rfl⟩)
  | reset =>
    obtain ⟨-, hkept⟩ | ⟨i, hi, hdrawn⟩ := s.dropCommand_mem
    · exact .inl hkept
    · exact .inr (.inr (.inr ⟨i, hi, rfl, hdrawn⟩))

/-- OUTLEN under a turn (R19): kept, cleared by a reset, or set by a buffer command to its output
length. -/
theorem Acts.outlen_cases (h : Acts s τ t) :
    t.outlen = s.outlen ∨
    (τ = .reset ∧ t.outlen = 0#32) ∨
    (∃ i, s.runsBuffer i ∧ τ = .engine ∧ t.outlen = BitVec.ofNat 32 (outLength i s.len.toNat) ∧
      statusErr t.status = 0#3) := by
  cases h with
  | idle | error | ignoredWrite | accept | memWrite | memRead => exact .inl rfl
  | complete i hs hd hv =>
    rw [State.endCommand_outlen, State.releaseHidden_outlen]
    obtain ⟨f, ⟨-, heff⟩ | ⟨hbuf, heff⟩⟩ := appliesToBlock_or_buffer i
    · exact .inl (by rw [heff, State.setBlock_outlen])
    · refine .inr (.inr ⟨i, ⟨hs, hd, hbuf, hv⟩, rfl, by rw [heff, codecEffect_eq], ?_⟩)
      exact statusErr_completed _ _
  | writeSlot slot v hs hslot => exact .inl (State.writeSlot_outlen slot v s)
  | read slot => exact .inl (State.hostRead_outlen slot s)
  | reset => exact .inr (.inl ⟨rfl, rfl⟩)

/-- No turn changes the platform's parameters (R6). -/
theorem Acts.parameters (h : Acts s τ t) : t.memTop = s.memTop ∧ t.regBase = s.regBase := by
  cases h with
  | idle | error | ignoredWrite | accept | memWrite | memRead => exact ⟨rfl, rfl⟩
  | complete i => simp
  | writeSlot slot v hs hslot =>
    exact ⟨State.writeSlot_memTop slot v s, State.writeSlot_regBase slot v s⟩
  | read slot => exact ⟨State.hostRead_memTop slot s, State.hostRead_regBase slot s⟩
  | reset => exact ⟨s.resetBlock_memTop, s.resetBlock_regBase⟩

theorem Acts.memSize_eq (h : Acts s τ t) : t.memSize = s.memSize := by
  obtain ⟨htop, -⟩ := h.parameters
  rw [State.memSize, State.memSize, htop]

end

/-! ### The operands of a running buffer command -/

/-- A validated buffer command's ranges lie in data memory, and its output length is a whole number
of blocks that 32 bits hold (R61, R62, R73). -/
theorem fits_of_valid (i : Instr) (s : State) (hbuf : commandIsBuffer i = true)
    (hv : validateInstr i s = none) :
    s.dst.toNat + outLength i s.len.toNat ≤ s.memSize ∧ outLength i s.len.toNat < 2 ^ 32 ∧
      outLength i s.len.toNat = 8 * blockCount i s.len.toNat := by
  cases i with
  | encBlock | decBlock => cases hbuf
  | encBuf =>
    obtain ⟨-, hlen, -, hdst, -⟩ := (validateInstr_encBuf s).1 hv
    exact ⟨hdst, hlen, rfl⟩
  | decBuf =>
    obtain ⟨-, hmod, -, hdst, -⟩ := (validateInstr_decBuf s).1 hv
    exact ⟨hdst, s.len.isLt, (Nat.mul_div_cancel' (Nat.dvd_of_mod_eq_zero hmod)).symm⟩

theorem State.runsBuffer.fits {s : State} {i : Instr} (h : s.runsBuffer i) :
    s.dst.toNat + outLength i s.len.toNat ≤ s.memSize ∧ outLength i s.len.toNat < 2 ^ 32 ∧
      outLength i s.len.toNat = 8 * blockCount i s.len.toNat := by
  obtain ⟨-, -, hbuf, hv⟩ := h
  exact fits_of_valid i s hbuf hv

/-- An address that is not outside the running command's output is in it, in the spec's terms
(R61). -/
theorem State.runsBuffer.runningOutput {s : State} {i : Instr} (h : s.runsBuffer i) (a : Nat)
    (ha : ¬(a < s.dst.toNat ∨ s.dst.toNat + outLength i s.len.toNat ≤ a)) :
    s.runningOutput a := by
  obtain ⟨hs, hd, hbuf, -⟩ := h
  exact ⟨hs, i, hd, hbuf, by omega, by omega⟩

/-- A running buffer command meets none of the spec's errors (R73). -/
theorem State.runsBuffer.firstError_eq {s : State} {i : Instr} (h : s.runsBuffer i) :
    firstError s.pend s = 0 := by
  obtain ⟨-, hd, -, hv⟩ := h
  rw [firstError_eq_validate, validate_of_decode_ok s.pend s i hd, hv, toNat_endCode_none]

end Sys2Proof.Machine

/-! What every turn keeps or changes, from the case lists of STATUS, data memory and OUTLEN. -/
namespace Sys2Proof.Machine

/-! ### The legal values of STATUS (10_state.md R14, R77) -/

theorem statusLegal_zero : statusLegal 0#32 :=
  ⟨fun _ _ => BitVec.getLsbD_zero, by decide⟩

theorem statusLegal_accepted : statusLegal statusAccepted := by
  refine ⟨fun i hi => ?_, by decide⟩
  have hbit : statusAccepted.getLsbD i = decide (i = 0) := by simp [statusAccepted]
  rw [hbit, decide_eq_false_iff_not]
  omega

/-- A completion clears BUSY and sets DONE, so only the error code is in question. -/
theorem statusLegal_completed (e : Option ErrorKind) {st : Word} (h : statusLegal st) :
    statusLegal (statusCompleted (endCode e) st) := by
  obtain ⟨hres, -⟩ := h
  refine ⟨fun i hi => (reserved_completed _ st i hi).trans (hres i hi), ?_, ?_, ?_, ?_⟩
  · simp
  · simp
  · rw [statusErr_completed]
    exact endCode_le e
  · simp

/-- An ignored write sets WIGN in a busy STATUS, which may hold it (R38). -/
theorem statusLegal_writeIgnored {st : Word} (hbusy : statusBusy st = true) (h : statusLegal st) :
    statusLegal (statusWriteIgnored st) := by
  obtain ⟨hres, hboth, herr, hcode, -⟩ := h
  refine ⟨fun i hi => (reserved_writeIgnored st i hi).trans (hres i hi), ?_, ?_, ?_, ?_⟩
  · rwa [statusBusy_writeIgnored, statusDone_writeIgnored]
  · rwa [statusBusy_writeIgnored, statusErr_writeIgnored]
  · rwa [statusErr_writeIgnored]
  · simp [hbusy]

section
variable {s t : State} {τ : Turn}

theorem Acts.keeps_statusLegal (h : Acts s τ t) (hs : statusLegal s.status) :
    statusLegal t.status := by
  obtain hst | ⟨-, hst⟩ | ⟨-, -, e, hst⟩ | ⟨hbusy, -, hst⟩ | ⟨-, -, hst⟩ := h.status_cases
  all_goals rw [hst]
  · exact hs
  · exact statusLegal_zero
  · exact statusLegal_completed e hs
  · exact statusLegal_writeIgnored hbusy hs
  · exact statusLegal_accepted

/-! ### How the fields of STATUS rise and fall (10_state.md R14) -/

theorem Acts.busy_rises (h : Acts s τ t) (hs : s.busy = false) (ht : t.busy = true) :
    ∃ v, τ = .regWrite 32 (s.regBase + 0x00) v ∧ t.pend = v := by
  rw [State.busy] at ht
  obtain hst | ⟨-, hst⟩ | ⟨hbusy, -⟩ | ⟨hbusy, -⟩ | ⟨-, haccept, -⟩ := h.status_cases
  · exact Bool.noConfusion (hs.symm.trans (hst ▸ ht))
  · exact absurd (hst ▸ ht) (by decide)
  · exact Bool.noConfusion (hs.symm.trans hbusy)
  · exact Bool.noConfusion (hs.symm.trans hbusy)
  · exact haccept

theorem Acts.busy_falls (h : Acts s τ t) (hs : s.busy = true) (ht : t.busy = false) :
    τ = .engine ∨ τ = .reset := by
  rw [State.busy] at hs ht
  obtain hst | ⟨hτ, -⟩ | ⟨-, hτ, -⟩ | ⟨-, -, hst⟩ | ⟨hidle, -⟩ := h.status_cases
  · rw [hst, hs] at ht; cases ht
  · exact .inr hτ
  · exact .inl hτ
  · rw [hst, statusBusy_writeIgnored, hs] at ht; cases ht
  · exact Bool.noConfusion (hidle.symm.trans hs)

theorem Acts.done_rises (h : Acts s τ t) (hs : s.done = false) (ht : t.done = true) :
    s.busy = true ∧ τ = .engine := by
  rw [State.done] at hs ht
  obtain hst | ⟨-, hst⟩ | ⟨hbusy, hτ, -⟩ | ⟨-, -, hst⟩ | ⟨-, -, hst⟩ := h.status_cases
  · rw [hst, hs] at ht; cases ht
  · rw [hst] at ht; cases ht
  · exact ⟨hbusy, hτ⟩
  · rw [hst, statusDone_writeIgnored, hs] at ht; cases ht
  · rw [hst] at ht; cases ht

theorem Acts.done_falls (h : Acts s τ t) (hs : s.done = true) (ht : t.done = false) :
    τ = .reset ∨ (s.busy = false ∧ ∃ v, τ = .regWrite 32 (s.regBase + 0x00) v) := by
  rw [State.done] at hs ht
  obtain hst | ⟨hτ, -⟩ | ⟨-, -, e, hst⟩ | ⟨-, -, hst⟩ | ⟨hidle, ⟨v, hτ, -⟩, -⟩ := h.status_cases
  · rw [hst, hs] at ht; cases ht
  · exact .inl hτ
  · rw [hst, statusDone_completed] at ht; cases ht
  · rw [hst, statusDone_writeIgnored, hs] at ht; cases ht
  · exact .inr ⟨hidle, v, hτ⟩

theorem Acts.err_changes (h : Acts s τ t) (hne : statusErr t.status ≠ statusErr s.status) :
    τ = .reset ∨ (s.busy = false ∧ ∃ v, τ = .regWrite 32 (s.regBase + 0x00) v) ∨
      (s.busy = true ∧ τ = .engine) := by
  obtain hst | ⟨hτ, -⟩ | ⟨hbusy, hτ, -⟩ | ⟨-, -, hst⟩ | ⟨hidle, ⟨v, hτ, -⟩, -⟩ := h.status_cases
  · exact absurd (congrArg statusErr hst) hne
  · exact .inl hτ
  · exact .inr (.inr ⟨hbusy, hτ⟩)
  · exact absurd (hst ▸ statusErr_writeIgnored s.status) hne
  · exact .inr (.inl ⟨hidle, v, hτ⟩)

theorem Acts.wign_rises (h : Acts s τ t) (hs : statusWign s.status = false)
    (ht : statusWign t.status = true) : s.busy = true ∧ ∃ w a v, τ = .regWrite w a v := by
  obtain hst | ⟨-, hst⟩ | ⟨-, -, e, hst⟩ | ⟨hbusy, hτ, -⟩ | ⟨-, -, hst⟩ := h.status_cases
  · rw [hst, hs] at ht; cases ht
  · rw [hst] at ht; cases ht
  · rw [hst, statusWign_completed, hs] at ht; cases ht
  · exact ⟨hbusy, hτ⟩
  · rw [hst] at ht; cases ht

theorem Acts.wign_falls (h : Acts s τ t) (hs : statusWign s.status = true)
    (ht : statusWign t.status = false) :
    τ = .reset ∨ ∃ v, τ = .regWrite 32 (s.regBase + 0x00) v := by
  obtain hst | ⟨hτ, -⟩ | ⟨-, -, e, hst⟩ | ⟨-, -, hst⟩ | ⟨-, ⟨v, hτ, -⟩, -⟩ := h.status_cases
  · rw [hst, hs] at ht; cases ht
  · exact .inl hτ
  · rw [hst, statusWign_completed, hs] at ht; cases ht
  · rw [hst, statusWign_writeIgnored] at ht; cases ht
  · exact .inr ⟨v, hτ⟩

/-! ### Data memory (20_memory.md R28, R30, 70_reset_and_hazards.md R92) -/

/-- Where a turn can change a byte: the host's write reaches it, or a running buffer command's
output does. -/
theorem Acts.read_changes (h : Acts s τ t) (a : Nat)
    (hne : Memory.read t.mem a ≠ Memory.read s.mem a) :
    (∃ b bs, τ = .memWrite b bs ∧ b ≤ a ∧ a < b + bs.length) ∨
      (s.runningOutput a ∧ (τ = .engine ∨ τ = .reset)) := by
  obtain hmem | ⟨b, bs, hτ, -, hmem⟩ | ⟨i, f, hi, hτ, hmem⟩ | ⟨i, hi, hτ, hmem⟩ := h.mem_cases
  all_goals rw [hmem] at hne
  · exact absurd rfl hne
  · refine .inl ⟨b, bs, hτ, ?_⟩
    by_contra hout
    exact hne (Memory.read_writeBytes_outside s.mem b bs a (by omega))
  · refine .inr ⟨hi.runningOutput a fun hout => hne ?_, .inl hτ⟩
    obtain ⟨-, -, hwhole⟩ := hi.fits
    apply read_codecLoop_outside
    simp only [bufferExtent]
    omega
  · exact .inr ⟨hi.runningOutput a fun hout =>
      hne (Memory.read_drawBytes_outside s.mem _ _ s.draws a hout), .inr hτ⟩

theorem Acts.keeps_memLegal (h : Acts s τ t) (hs : s.memLegal) : t.memLegal := by
  obtain ⟨hwf, hbelow⟩ := hs
  rw [State.memLegal, h.memSize_eq]
  obtain hmem | ⟨a, bs, -, hin, hmem⟩ | ⟨i, f, hi, -, hmem⟩ | ⟨i, hi, -, hmem⟩ := h.mem_cases
  all_goals rw [hmem]
  · exact ⟨hwf, hbelow⟩
  · exact ⟨Memory.wf_writeBytes _ _ _ hwf, Memory.below_writeBytes _ _ _ _ hbelow hin⟩
  · obtain ⟨hdst, -, hwhole⟩ := hi.fits
    refine ⟨Memory.wf_codecLoop _ _ _ _ _ hwf, Memory.below_codecLoop _ _ _ _ _ _ hbelow ?_⟩
    simp only [bufferExtent]
    omega
  · obtain ⟨hdst, -⟩ := hi.fits
    exact ⟨Memory.wf_drawBytes _ _ _ _ hwf, Memory.below_drawBytes _ _ _ _ _ hbelow hdst⟩

/-! ### OUTLEN (10_state.md R19) -/

theorem Acts.outlen_changes (h : Acts s τ t) (hne : t.outlen ≠ s.outlen) :
    (τ = .reset ∧ t.outlen = 0#32) ∨
    (τ = .engine ∧ ∃ i, s.runsBuffer i ∧ t.outlen.toNat = outLength i s.len.toNat ∧
      statusErr t.status = 0#3) := by
  obtain hout | hreset | ⟨i, hi, hτ, hout, herr⟩ := h.outlen_cases
  · exact absurd hout hne
  · exact .inl hreset
  · obtain ⟨-, hlt, -⟩ := hi.fits
    refine .inr ⟨hτ, i, hi, ?_, herr⟩
    rw [hout, BitVec.toNat_ofNat, Nat.mod_eq_of_lt hlt]

theorem Acts.keeps_outlenLegal (h : Acts s τ t) (hs : s.outlenLegal) : t.outlenLegal := by
  rw [State.outlenLegal, h.memSize_eq]
  by_cases hout : t.outlen = s.outlen
  · rw [hout]
    exact hs
  · obtain ⟨-, hzero⟩ | ⟨-, i, hi, hlen, -⟩ := h.outlen_changes hout
    · rw [hzero]
      exact ⟨rfl, Nat.zero_le _⟩
    · obtain ⟨hdst, -, hwhole⟩ := hi.fits
      omega

/-! ### The host's duty (20_memory.md R42, log entry 10) -/

/-- A register read ends the duty when it observes completion, and keeps it otherwise. -/
theorem State.hostRead_duty (slot : Slot) (s : State) :
    (s.hostRead slot).duty = if s.observesCompletion slot then [] else s.duty := by
  unfold hostRead
  split
  next hbusy =>
    have hnot : s.observesCompletion slot = false := by
      simp only [Bool.and_eq_true] at hbusy
      simp [observesCompletion, hbusy.1]
    rw [hnot]; rfl
  next => rfl

theorem State.observesCompletion_of_busy (slot : Slot) (s : State) (hs : s.busy = true) :
    s.observesCompletion slot = false := by
  simp [observesCompletion, hs]

theorem State.bufferExtent_mem_dutyAfter (s : State) (c : Word) (i : Instr)
    (hd : decode c = .ok i) (hbuf : commandIsBuffer i = true) :
    bufferExtent i s ∈ s.dutyAfter c := by
  simp [dutyAfter, hd, hbuf]

/-- An idle state has no running command to cover. -/
theorem State.dutyCovers_of_idle {s : State} (hs : s.busy = false) : s.dutyCovers :=
  fun hbusy => Bool.noConfusion (hs.symm.trans hbusy)

@[simp] theorem State.busy_resetBlock (s : State) : s.resetBlock.busy = false := by
  rw [busy, resetBlock_status]; rfl

/-- An acceptance adds the command's ranges; nothing takes a range off, or moves SRC, DST or LEN,
while the command runs. -/
theorem Acts.keeps_dutyCovers (h : Acts s τ t) (hs : s.dutyCovers) : t.dutyCovers := by
  cases h with
  | idle => exact hs
  | error | complete => exact State.dutyCovers_of_idle (State.busy_endCommand _ _)
  | ignoredWrite slot v hbusy => exact fun _ => hs hbusy
  | accept v => exact fun _ i hd hbuf => s.bufferExtent_mem_dutyAfter v i hd hbuf
  | writeSlot slot v hidle hslot =>
    exact State.dutyCovers_of_idle ((State.busy_writeSlot slot v s hslot).trans hidle)
  | read slot =>
    intro hbusy i hd hbuf
    rw [State.busy, State.hostRead_status] at hbusy
    rw [State.hostRead_pend] at hd
    have hext : bufferExtent i (s.hostRead slot) = bufferExtent i s := by simp [bufferExtent]
    rw [hext, State.hostRead_duty, s.observesCompletion_of_busy slot hbusy]
    exact hs hbusy i hd hbuf
  | memWrite | memRead => exact hs
  | reset => exact State.dutyCovers_of_idle s.busy_resetBlock

end

end Sys2Proof.Machine

namespace Sys2Proof.Proofs
open Sys2Proof.Machine

/-- Settles O35 (R28, R30, R66, R70, R92). -/
theorem memoryChangesOnlyWhereItMay : Obligations.MemoryChangesOnlyWhereItMay := by
  intro s t a hstep hne
  obtain ⟨b, bs, hτ, hlo, hhi⟩ | ⟨hrun, hτ⟩ := (step_acts s t hstep).read_changes a hne
  · obtain ⟨rest, hturns⟩ := s.turns_eq_of_nextTurn _ hτ (by simp)
    exact .inl ⟨b, bs, rest, hturns, hlo, hhi⟩
  · exact .inr ⟨hrun, hτ.imp s.engineMoves_iff.2 s.head?_eq_reset_iff.2⟩

/-- Settles O38 (R14, R77). -/
theorem statusStaysLegal : Obligations.StatusStaysLegal := fun s t hs hstep =>
  (step_acts s t hstep).keeps_statusLegal hs

/-- Settles O39 (R28). -/
theorem memoryStaysLegal : Obligations.MemoryStaysLegal := fun s t hs hstep =>
  (step_acts s t hstep).keeps_memLegal hs

/-- Settles O40 (R42). -/
theorem dutyCoversTheRunningCommand : Obligations.DutyCoversTheRunningCommand :=
  fun s t hs hstep => (step_acts s t hstep).keeps_dutyCovers hs

/-- Settles O41 (R19, R66, R67). -/
theorem outlenStaysWholeBlocks : Obligations.OutlenStaysWholeBlocks := fun s t hs hstep =>
  (step_acts s t hstep).keeps_outlenLegal hs

/-- Settles O31 (R15, R16, R18, R21): the engine's three actions write STATUS, results and hidden
registers only. -/
theorem engineNeverWritesKeyOrOperands : Obligations.EngineNeverWritesKeyOrOperands := by
  intro s t h
  cases engineTurn_acts s t h with
  | idle | error => exact ⟨rfl, rfl, rfl, rfl, rfl, rfl, rfl, rfl, rfl⟩
  | complete i => simp

/-- Settles O32 (R19). -/
theorem onlyBufferCommandsChangeOutlen : Obligations.OnlyBufferCommandsChangeOutlen := by
  intro s t hstep hne
  obtain ⟨hτ, hzero⟩ | ⟨hτ, i, hi, hlen, herr⟩ := (step_acts s t hstep).outlen_changes hne
  · exact .inl ⟨s.head?_eq_reset_iff.2 hτ, hzero⟩
  · have hnone := hi.firstError_eq
    obtain ⟨hbusy, hd, hbuf, -⟩ := hi
    exact .inr ⟨s.engineMoves_iff.2 hτ, hbusy, hnone, i, hd, hbuf, hlen, herr⟩

/-- Settles O33 (R14, R71, R72). -/
theorem busyRisesAtCmdAndFallsAtCompletion : Obligations.BusyRisesAtCmdAndFallsAtCompletion := by
  intro s t hstep
  have hacts := step_acts s t hstep
  refine ⟨fun hs ht => ?_, fun hs ht => ?_, fun hs ht => ?_⟩
  · obtain ⟨v, hτ, hpend⟩ := hacts.busy_rises hs ht
    obtain ⟨rest, hturns⟩ := s.turns_eq_of_nextTurn _ hτ (by simp)
    exact ⟨v, rest, hturns, hpend⟩
  · exact (hacts.busy_falls hs ht).imp s.engineMoves_iff.2 s.head?_eq_reset_iff.2
  · exact (hacts.done_rises hs ht).imp_right s.engineMoves_iff.2

/-- Settles O34 (R14, R38, R71, R74). -/
theorem wignRecordsBusyWrites : Obligations.WignRecordsBusyWrites := by
  intro s t hstep
  have hacts := step_acts s t hstep
  refine ⟨fun hs ht => ?_, fun hs ht => ?_⟩
  · obtain ⟨hbusy, w, a, v, hτ⟩ := hacts.wign_rises hs ht
    obtain ⟨rest, hturns⟩ := s.turns_eq_of_nextTurn _ hτ (by simp)
    exact ⟨hbusy, w, a, v, rest, hturns⟩
  · refine (hacts.wign_falls hs ht).imp s.head?_eq_reset_iff.2 fun ⟨v, hτ⟩ => ?_
    exact ⟨v, s.turns_eq_of_nextTurn _ hτ (by simp)⟩

/-- Settles O49 (R14, R71, R76). -/
theorem doneAndErrAreKeptBetweenCommands : Obligations.DoneAndErrAreKeptBetweenCommands := by
  intro s t hstep
  have hacts := step_acts s t hstep
  have haccept (h : ∃ v, s.nextTurn = .regWrite 32 (s.regBase + 0x00) v) :
      ∃ v rest, s.turns = .regWrite 32 (s.regBase + 0x00) v :: rest :=
    h.imp fun v hτ => s.turns_eq_of_nextTurn _ hτ (by simp)
  refine ⟨fun hs ht => ?_, fun hne => ?_⟩
  · exact (hacts.done_falls hs ht).imp s.head?_eq_reset_iff.2 (And.imp_right haccept)
  · exact (hacts.err_changes hne).imp s.head?_eq_reset_iff.2
      (Or.imp (And.imp_right haccept) (And.imp_right s.engineMoves_iff.2))

/-- Settles O37 (R6). -/
theorem platformParametersAreFixed : Obligations.PlatformParametersAreFixed := fun s t hstep =>
  (step_acts s t hstep).parameters

/-- Settles O43 (R27, R91): the values stand in the definition of reset. -/
theorem resetStateHoldsTheSpecValues : Obligations.ResetStateHoldsTheSpecValues :=
  ⟨rfl, rfl, rfl, rfl, rfl, rfl, rfl, rfl, rfl, rfl, rfl, rfl, rfl⟩

/-- Settles O42 (R91, R89): each invariant holds of the reset values, and the idle engine keeps
them. -/
theorem resetMeetsTheInvariants : Obligations.ResetMeetsTheInvariants := by
  have hidle : State.reset.busy = false := rfl
  have hinv : State.reset.Inv :=
    ⟨statusLegal_zero, ⟨Memory.wf_reset, fun _ hc => absurd hc List.not_mem_nil⟩,
      State.dutyCovers_of_idle hidle, ⟨rfl, Nat.zero_le _⟩, rfl⟩
  refine ⟨hinv, rfl, ?_⟩
  obtain ⟨-, hstep⟩ := idleEngineKeepsEverything State.reset hidle
  exact hstep rfl

/-- Settles O44 (R91, R92): a reset draws bytes only over a running buffer command's output. -/
theorem resetClearsRegistersKeepsMemory : Obligations.ResetClearsRegistersKeepsMemory := by
  intro s
  refine ⟨s.resetBlock, rfl,
    ⟨rfl, rfl, rfl, rfl, rfl, rfl, rfl, rfl, rfl, rfl, rfl, rfl, rfl⟩,
    fun hno => ?_, fun a hout => ?_⟩
  · obtain ⟨-, hkept⟩ | ⟨i, hi, -⟩ := s.dropCommand_mem
    · exact hkept
    · exfalso
      have hnone := hi.firstError_eq
      obtain ⟨hbusy, hd, hbuf, -⟩ := hi
      obtain ⟨-, -, hkinds⟩ := legalWordsAreTheFourCommands s.pend
      obtain ⟨hmode, -⟩ := hkinds i hd
      have hbit := hmode.1 hbuf
      obtain hidle | herr | hblock := hno
      · exact Bool.noConfusion (hidle.symm.trans hbusy)
      · exact herr hnone
      · omega
  · by_contra hne
    obtain ⟨b, bs, hτ, -⟩ | ⟨hin, -⟩ := Acts.reset.read_changes a hne
    · cases hτ
    · exact hout hin

end Sys2Proof.Proofs

/-! What nothing observes (10_state.md R25, R27, log entry 8): a turn from a state whose hidden
registers are erased answers what the turn answers, up to those registers; and so for PEND while no
command is in progress. -/
namespace Sys2Proof.Machine

/-- The registers that no action reads: `work` is sum, round and blk, in every state; `pend` is
PEND, while no command is in progress. -/
inductive Latch where
  | work
  | pend

/-- The state with the latch at 0. -/
def State.erase (s : State) : Latch → State
  | .work => { s with sum := 0#32, round := 0#6, blk := 0#30 }
  | .pend => { s with pend := 0#32 }

/-- An outcome with the latch of its next state at 0. -/
def eraseNext (l : Latch) : Host.Outcome State Fault Refusal → Host.Outcome State Fault Refusal
  | .next t => .next (t.erase l)
  | .fault r => .fault r
  | .refused r => .refused r

@[simp] theorem eraseNext_next (l : Latch) (t : State) :
    eraseNext l (.next t) = .next (t.erase l) := rfl

theorem eraseNext_eq_next (l : Latch) (o : Host.Outcome State Fault Refusal) (t : State)
    (h : eraseNext l o = .next (t.erase l)) : ∃ t', o = .next t' ∧ t.erase l = t'.erase l := by
  cases o with
  | next t' => exact ⟨t', rfl, (Host.Outcome.next.inj h).symm⟩
  | fault | refused => cases h

@[simp] theorem State.busy_erase (s : State) (l : Latch) : (s.erase l).busy = s.busy := by
  cases l <;> rfl

/-- A completed command reads neither the hidden registers nor, once validated, PEND. -/
theorem erase_commandEffect (i : Instr) (s : State) (l : Latch) :
    ((commandEffect i (s.erase l)).releaseHidden.endCommand none).erase l =
      ((commandEffect i s).releaseHidden.endCommand none).erase l := by
  obtain ⟨f, ⟨-, heff⟩ | ⟨-, heff⟩⟩ := appliesToBlock_or_buffer i
  · rw [heff, heff]
    cases l <;> rfl
  · rw [heff, heff, codecEffect_eq, codecEffect_eq]
    cases l <;> rfl

theorem engineTurn_of_error (s : State) (e : ErrorKind) (hs : s.busy = true)
    (hv : validate s.pend s = some e) : engineTurn s = .next (s.endCommand (some e)) := by
  obtain ⟨e', hv', ht⟩ | ⟨hv', -⟩ := engineTurn_of_busy s hs
  · obtain rfl : e = e' := Option.some.inj (hv.symm.trans hv')
    exact ht
  · cases hv.symm.trans hv'

theorem engineTurn_erase (s : State) (l : Latch) (hl : l = .pend → s.busy = false) :
    eraseNext l (engineTurn (s.erase l)) = eraseNext l (engineTurn s) := by
  cases hs : s.busy with
  | false =>
    rw [engineTurn_of_idle s hs, engineTurn_of_idle _ ((s.busy_erase l).trans hs)]
    cases l <;> rfl
  | true =>
    have hse := (s.busy_erase l).trans hs
    cases l with
    | pend => exact absurd (hs.symm.trans (hl rfl)) (by simp)
    | work =>
      obtain ⟨e, hv, ht⟩ | ⟨hv, i, hd, ht⟩ := engineTurn_of_busy s hs
      · rw [ht, engineTurn_of_error (s.erase .work) e hse hv]
        rfl
      · rw [validate_of_decode_ok s.pend s i hd] at hv
        rw [ht, engineTurn_of_decode_ok (s.erase .work) i hse hd, exec_valid i (s.erase .work) hv]
        exact congrArg Host.Outcome.next (erase_commandEffect i s .work)

theorem erase_hostWrite (slot : Slot) (v : Word) (s : State) (l : Latch) :
    ((s.erase l).hostWrite slot v).erase l = (s.hostWrite slot v).erase l := by
  unfold State.hostWrite
  rw [s.busy_erase l]
  split
  · cases l <;> rfl
  · cases l <;> cases slot <;> rfl

theorem erase_hostRead (slot : Slot) (s : State) (l : Latch) :
    ((s.erase l).hostRead slot).erase l = (s.hostRead slot).erase l := by
  unfold State.hostRead
  rw [s.busy_erase l]
  split
  · cases l <;> rfl
  · cases l <;> cases slot <;> rfl

theorem hostRegWrite_erase (width address : Nat) (v : Word) (s : State) (l : Latch) :
    eraseNext l (hostRegWrite width address v (s.erase l)) =
      eraseNext l (hostRegWrite width address v s) := by
  have hreach : (s.erase l).reachedSlot width address = s.reachedSlot width address := by
    cases l <;> rfl
  unfold hostRegWrite
  rw [hreach]
  cases s.reachedSlot width address with
  | error r => rfl
  | ok slot => exact congrArg Host.Outcome.next (erase_hostWrite slot v s l)

theorem hostRegRead_erase (width address : Nat) (s : State) (l : Latch) :
    eraseNext l (hostRegRead width address (s.erase l)) =
      eraseNext l (hostRegRead width address s) := by
  have hreach : (s.erase l).reachedSlot width address = s.reachedSlot width address := by
    cases l <;> rfl
  have hstatus : (s.erase l).status = s.status := by cases l <;> rfl
  unfold hostRegRead
  rw [hreach, hstatus]
  cases s.reachedSlot width address with
  | error r => rfl
  | ok slot =>
    simp only
    split
    · rfl
    · exact congrArg Host.Outcome.next (erase_hostRead slot s l)

theorem hostMemWrite_erase (a : Nat) (bs : List Byte) (s : State) (l : Latch) :
    eraseNext l (hostMemWrite a bs (s.erase l)) = eraseNext l (hostMemWrite a bs s) := by
  have hin : (s.erase l).inDataMemory a bs.length = s.inDataMemory a bs.length := by
    cases l <;> rfl
  have hraces : (s.erase l).writeRaces = s.writeRaces := by cases l <;> rfl
  unfold hostMemWrite
  rw [hin, hraces]
  split
  · rfl
  · split
    · rfl
    · cases l <;> rfl

theorem hostMemRead_erase (a n : Nat) (s : State) (l : Latch) :
    eraseNext l (hostMemRead a n (s.erase l)) = eraseNext l (hostMemRead a n s) := by
  have hin : (s.erase l).inDataMemory a n = s.inDataMemory a n := by cases l <;> rfl
  have hraces : (s.erase l).readRaces = s.readRaces := by cases l <;> rfl
  unfold hostMemRead
  rw [hin, hraces]
  split
  · rfl
  · split
    · rfl
    · cases l <;> rfl

/-- Only a command in progress is abandoned, so an idle reset does not read PEND (R92). -/
theorem State.abandoned_of_idle (s : State) (hs : s.busy = false) : s.abandoned = none := by
  simp [abandoned, hs]

theorem erase_resetBlock (s : State) (l : Latch) (hl : l = .pend → s.busy = false) :
    (s.erase l).resetBlock.erase l = s.resetBlock.erase l := by
  have habandoned : (s.erase l).abandoned = s.abandoned := by
    cases l with
    | work => rfl
    | pend =>
      have hs := hl rfl
      rw [s.abandoned_of_idle hs, State.abandoned_of_idle _ ((s.busy_erase .pend).trans hs)]
  unfold State.resetBlock State.dropCommand
  rw [habandoned]
  cases s.abandoned <;> cases l <;> rfl

theorem takeTurn_erase (τ : Turn) (s : State) (l : Latch) (hl : l = .pend → s.busy = false) :
    eraseNext l (takeTurn τ (s.erase l)) = eraseNext l (takeTurn τ s) := by
  cases τ with
  | engine => exact engineTurn_erase s l hl
  | regWrite width address v => exact hostRegWrite_erase width address v s l
  | regRead width address => exact hostRegRead_erase width address s l
  | memWrite a bs => exact hostMemWrite_erase a bs s l
  | memRead a n => exact hostMemRead_erase a n s l
  | reset => exact congrArg Host.Outcome.next (erase_resetBlock s l hl)

theorem step_erase (s : State) (l : Latch) (hl : l = .pend → s.busy = false) :
    eraseNext l (step (s.erase l)) = eraseNext l (step s) := by
  have hturn : (s.erase l).nextTurn = s.nextTurn := by cases l <;> rfl
  have hpop : (s.erase l).popTurn = s.popTurn.erase l := by cases l <;> rfl
  rw [step_eq_takeTurn, step_eq_takeTurn, hturn, hpop]
  exact takeTurn_erase s.nextTurn s.popTurn l hl

/-- Two states that differ in the latch only take the same step, up to the latch. -/
theorem step_of_erase_eq (s s' t : State) (l : Latch) (hl : l = .pend → s.busy = false)
    (hs : s.erase l = s'.erase l) (hstep : step s = .next t) :
    ∃ t', step s' = .next t' ∧ t.erase l = t'.erase l := by
  have hbusy : s.busy = s'.busy := by rw [← s.busy_erase l, hs, State.busy_erase]
  apply eraseNext_eq_next
  calc eraseNext l (step s')
      = eraseNext l (step (s'.erase l)) := (step_erase s' l fun h => hbusy ▸ hl h).symm
    _ = eraseNext l (step (s.erase l)) := by rw [hs]
    _ = eraseNext l (step s) := step_erase s l hl
    _ = .next (t.erase l) := by rw [hstep, eraseNext_next]

end Sys2Proof.Machine

namespace Sys2Proof.Proofs
open Sys2Proof.Machine

/-- Settles O36 (R25, R27): the step is the same up to the erased registers, in both cases. -/
theorem hiddenRegistersAreUnobservable : Obligations.HiddenRegistersAreUnobservable := by
  constructor
  · intro s t sum round blk hstep
    obtain ⟨t', hstep', ht⟩ := step_of_erase_eq s { s with sum := sum, round := round, blk := blk } t
      .work (fun h => by cases h) rfl hstep
    exact ⟨t', hstep', congrArg
      (fun u : State => { u with sum := t.sum, round := t.round, blk := t.blk }) ht⟩
  · intro s t pend hs hstep
    obtain ⟨t', hstep', ht⟩ := step_of_erase_eq s { s with pend := pend } t
      .pend (fun _ => hs) rfl hstep
    exact ⟨t', hstep', congrArg (fun u : State => { u with pend := t.pend }) ht⟩

end Sys2Proof.Proofs

/-! The buffer commands' results (R61 to R70): what a validated command leaves, for a variable block
function. -/
namespace Sys2Proof.Machine

/-- The state a buffer command leaves when it completes with `m` and `n` output bytes (R66, R67,
R74). -/
def State.completeWithBuffer (m : Memory) (n : Nat) (s : State) : State :=
  (s.setBuffer m n).releaseHidden.endCommand none

theorem State.completeWithBuffer_outlen (m : Memory) (n : Nat) (s : State) :
    (s.completeWithBuffer m n).outlen = BitVec.ofNat 32 n := rfl

theorem blockCount_whole (i : Instr) (n : Nat) : blockCount i (8 * n) = n := by
  unfold blockCount
  split <;> omega

theorem outLength_whole (i : Instr) (n : Nat) : outLength i (8 * n) = 8 * n := by
  unfold outLength
  split <;> omega

theorem paddedInput_of_lt (s : State) (k : Nat) (hk : k < s.len.toNat) :
    paddedInput s k = Memory.read s.mem (s.src.toNat + k) := if_pos hk

theorem paddedInput_of_le (s : State) (k : Nat) (hk : s.len.toNat ≤ k) : paddedInput s k = 0#8 :=
  if_neg (Nat.not_lt.2 hk)

/-- Only the input range is read (R63). -/
theorem paddedInput_congr (s : State) (m : Memory)
    (hm : ∀ k, k < s.len.toNat →
      Memory.read m (s.src.toNat + k) = Memory.read s.mem (s.src.toNat + k)) (k : Nat) :
    paddedInput { s with mem := m } k = paddedInput s k := by
  unfold paddedInput
  split
  next hk => exact hm k hk
  next => rfl

/-- A block is determined by its eight bytes (R31). -/
theorem eq_blockOfBytes (b : Block) (c : Nat → Byte) (h : ∀ j, j < 8 → c j = blockByte b j) :
    blockOfBytes c = b :=
  (blockOfBytes_congr c (blockByte b) h).trans (blockOfBytes_blockByte b)

section
variable {i j : Instr} {f g : Key → Block → Block}

theorem AppliesToBuffer.exec_eq (hi : AppliesToBuffer i f) (s : State)
    (hv : validateInstr i s = none) :
    exec i s = .next (s.completeWithBuffer
      (codecLoop (f s.key) (bufferExtent i s) (blockCount i s.len.toNat) 0 s.mem)
      (outLength i s.len.toNat)) := by
  obtain ⟨-, heff⟩ := hi
  rw [exec_valid i s hv, heff, codecEffect, State.completeWithBuffer]

theorem AppliesToBuffer.toNat_outlen (hi : AppliesToBuffer i f) (s t : State)
    (hv : validateInstr i s = none) (ht : exec i s = .next t) :
    t.outlen.toNat = outLength i s.len.toNat := by
  obtain rfl := Host.Outcome.next.inj ((hi.exec_eq s hv).symm.trans ht)
  obtain ⟨-, hlt, -⟩ := fits_of_valid i s hi.1 hv
  rw [State.completeWithBuffer_outlen, BitVec.toNat_ofNat, Nat.mod_eq_of_lt hlt]

/-- The bytes outside the output range are as before (R70). -/
theorem AppliesToBuffer.read_outside (hi : AppliesToBuffer i f) (s t : State)
    (hv : validateInstr i s = none) (ht : exec i s = .next t) (a : Nat)
    (ha : a < s.dst.toNat ∨ s.dst.toNat + outLength i s.len.toNat ≤ a) :
    Memory.read t.mem a = Memory.read s.mem a := by
  obtain ⟨-, -, hwhole⟩ := fits_of_valid i s hi.1 hv
  rw [hi.mem_eq s t hv ht]
  apply read_codecLoop_outside
  simp only [bufferExtent]
  omega

/-- The results, STATUS and the frame of a completed buffer command. -/
theorem AppliesToBuffer.completes (hi : AppliesToBuffer i f) (s : State)
    (hv : validateInstr i s = none) :
    ∃ t, exec i s = .next t ∧
      (∀ n k, n < blockCount i s.len.toNat → k < 8 →
        Memory.read t.mem (s.dst.toNat + 8 * n + k) = blockByte (f s.key (inputBlock s n)) k) ∧
      (∀ a, a < s.dst.toNat ∨ s.dst.toNat + outLength i s.len.toNat ≤ a →
        Memory.read t.mem a = Memory.read s.mem a) ∧
      t.outlen.toNat = outLength i s.len.toNat ∧ statusEnds 0 s.status t.status ∧
      bufferFrame s t := by
  have ht := hi.exec_eq s hv
  exact ⟨_, ht, hi.read_output s _ hv ht, hi.read_outside s _ hv ht, hi.toNat_outlen s _ hv ht,
    statusEnds_endCommand none (s.setBuffer _ _).releaseHidden, bufferFrame_setBuffer _ _ none s⟩

/-- Of an empty buffer the loop processes no block (R62). -/
theorem AppliesToBuffer.completes_empty (hi : AppliesToBuffer i f) (s : State)
    (hv : validateInstr i s = none) (hlen : s.len = 0#32) :
    ∃ t, exec i s = .next t ∧ t.mem = s.mem ∧ t.outlen = 0#32 ∧ statusEnds 0 s.status t.status := by
  have hzero : s.len.toNat = 8 * 0 := by rw [hlen]; rfl
  obtain ⟨t, ht, -, -, hout, hends, -⟩ := hi.completes s hv
  refine ⟨t, ht, ?_, BitVec.eq_of_toNat_eq ?_, hends⟩
  · rw [hi.mem_eq s t hv ht, hzero, blockCount_whole, codecLoop]
  · rw [hout, hzero, outLength_whole]; rfl

/-- The command's output, taken as the input of a further command, is its output blocks. -/
theorem AppliesToBuffer.inputBlock_output (hi : AppliesToBuffer i f) (s t : State) (place : Word)
    (hv : validateInstr i s = none) (ht : exec i s = .next t) (n : Nat)
    (hn : n < blockCount i s.len.toNat) :
    inputBlock { t with src := s.dst, dst := place, len := t.outlen } n =
      f s.key (inputBlock s n) := by
  obtain ⟨-, -, hwhole⟩ := fits_of_valid i s hi.1 hv
  have hlen := hi.toNat_outlen s t hv ht
  refine eq_blockOfBytes _ _ fun k hk => ?_
  rw [paddedInput_of_lt _ _ (by simp only; omega), ← hi.read_output s t hv ht n k hn hk,
    Nat.add_assoc]

theorem AppliesToBuffer.key_eq (hi : AppliesToBuffer i f) (s t : State)
    (hv : validateInstr i s = none) (ht : exec i s = .next t) : t.key = s.key := by
  obtain rfl := Host.Outcome.next.inj ((hi.exec_eq s hv).symm.trans ht)
  rfl

/-- A buffer command and then, on its output, one that applies the inverse function give the
zero-extended input back (R68). -/
theorem AppliesToBuffer.restores (hi : AppliesToBuffer i f) (hj : AppliesToBuffer j g)
    (hgf : ∀ k b, g k (f k b) = b) (s t : State) (place : Word) (hv : validateInstr i s = none)
    (ht : exec i s = .next t)
    (hv' : validateInstr j { t with src := s.dst, dst := place, len := t.outlen } = none) :
    ∃ u, exec j { t with src := s.dst, dst := place, len := t.outlen } = .next u ∧
      u.outlen.toNat = outLength i s.len.toNat ∧
      ∀ k, k < outLength i s.len.toNat →
        Memory.read u.mem (place.toNat + k) = paddedInput s k := by
  obtain ⟨-, -, hwhole⟩ := fits_of_valid i s hi.1 hv
  have hlen : t.outlen.toNat = 8 * blockCount i s.len.toNat := by
    rw [hi.toNat_outlen s t hv ht, hwhole]
  obtain ⟨u, hu, hread, -, hout, -⟩ := hj.completes _ hv'
  simp only [hlen, blockCount_whole, outLength_whole] at hread hout
  refine ⟨u, hu, hout.trans hwhole.symm, fun k hk => ?_⟩
  have hn : k / 8 < blockCount i s.len.toNat := by omega
  have hj8 : k % 8 < 8 := Nat.mod_lt k (by decide)
  have hkey : State.key { t with src := s.dst, dst := place, len := t.outlen } = s.key :=
    hi.key_eq s t hv ht
  have hbyte := hread (k / 8) (k % 8) hn hj8
  rw [hi.inputBlock_output s t place hv ht _ hn, hkey, hgf, inputBlock,
    blockByte_blockOfBytes _ _ hj8, Nat.add_assoc, Nat.div_add_mod] at hbyte
  exact hbyte

/-- Data memory beyond the input range reaches neither the results nor STATUS (R63). -/
theorem AppliesToBuffer.output_congr (hi : AppliesToBuffer i f) (s t t' : State) (m : Memory)
    (hv : validateInstr i s = none)
    (hm : ∀ k, k < s.len.toNat →
      Memory.read m (s.src.toNat + k) = Memory.read s.mem (s.src.toNat + k))
    (ht : exec i s = .next t) (ht' : exec i { s with mem := m } = .next t') :
    (∀ a, s.dst.toNat ≤ a → a < s.dst.toNat + outLength i s.len.toNat →
      Memory.read t'.mem a = Memory.read t.mem a) ∧
    t'.status = t.status ∧ t'.outlen = t.outlen := by
  have hv' : validateInstr i { s with mem := m } = none := hv
  have hblock (n : Nat) : inputBlock { s with mem := m } n = inputBlock s n :=
    blockOfBytes_congr _ _ fun k _ => paddedInput_congr s m hm (8 * n + k)
  refine ⟨fun a hlo hhi => ?_, ?_⟩
  · obtain ⟨-, -, hwhole⟩ := fits_of_valid i s hi.1 hv
    obtain ⟨d, rfl⟩ := Nat.exists_eq_add_of_le hlo
    have hn : d / 8 < blockCount i s.len.toNat := by omega
    rw [← Nat.div_add_mod d 8, ← Nat.add_assoc]
    exact hi.read_output_congr _ s t' t _ _ hv' hv rfl ht' ht hn hn (hblock _) _
      (Nat.mod_lt d (by decide))
  · obtain rfl := Host.Outcome.next.inj ((hi.exec_eq s hv).symm.trans ht)
    obtain rfl := Host.Outcome.next.inj ((hi.exec_eq _ hv').symm.trans ht')
    exact ⟨rfl, rfl⟩

/-- On a buffer of one block the buffer command does what the block command does on the words its
bytes make (R59, R66). -/
theorem AppliesToBuffer.one_block (hi : AppliesToBuffer i f) (hj : AppliesToBlock j f) (s : State)
    (hv : validateInstr i s = none) (hk : s.keylen = 4#32) (hlen : s.len.toNat = 8 * 1)
    (b : Block) (hb : blockOfBytes (fun k => Memory.read s.mem (s.src.toNat + k)) = b) :
    ∃ t u, exec i s = .next t ∧ exec j { s with v0 := b.v0, v1 := b.v1 } = .next u ∧
      blockOfBytes (fun k => Memory.read t.mem (s.dst.toNat + k)) = ⟨u.v0, u.v1⟩ := by
  obtain ⟨t, ht, hread, -⟩ := hi.completes s hv
  refine ⟨t, _, ht, hj.exec_eq _ hk, eq_blockOfBytes _ _ fun k hk8 => ?_⟩
  have hinput : inputBlock s 0 = b := by
    rw [← hb]
    refine blockOfBytes_congr _ _ fun k hk8 => ?_
    rw [paddedInput_of_lt s _ (by omega), Nat.mul_zero, Nat.zero_add]
  have hbyte := hread 0 k (by rw [hlen, blockCount_whole]; decide) hk8
  rw [hinput, Nat.mul_zero, Nat.add_zero] at hbyte
  exact hbyte

end

/-! ### Any order of the blocks (R65) -/

section
variable (f : Block → Block) (e : Extent)

theorem read_foldl_codecBlock_outside (order : List Nat) (m : Memory) (a : Nat)
    (h : ∀ i ∈ order, a < e.dst + 8 * i ∨ e.dst + 8 * i + 8 ≤ a) :
    Memory.read (order.foldl (fun m i => codecBlock f e i m) m) a = Memory.read m a := by
  induction order generalizing m with
  | nil => rfl
  | cons i rest ih =>
    obtain ⟨hi, hrest⟩ := List.forall_mem_cons.1 h
    rw [List.foldl_cons, ih _ hrest, codecBlock, read_writeBlock_outside _ _ _ _ _ hi]

/-- Each block is read as it was before the command, whenever its turn comes: no other block's write
meets its input. -/
theorem read_foldl_codecBlock_inside (order : List Nat) (m : Memory) (k j : Nat)
    (ha : rangesApart e.src e.len e.dst e.outLen) (hfit : ∀ i ∈ order, 8 * i + 8 ≤ e.outLen)
    (hnodup : order.Nodup) (hk : k ∈ order) (hj : j < 8) :
    Memory.read (order.foldl (fun m i => codecBlock f e i m) m) (e.dst + 8 * k + j) =
      blockByte (f (readBlock m e k)) j := by
  induction order generalizing m with
  | nil => cases hk
  | cons i rest ih =>
    obtain ⟨hi, hrest⟩ := List.forall_mem_cons.1 hfit
    obtain ⟨hfresh, hnodup'⟩ := List.nodup_cons.1 hnodup
    rw [List.foldl_cons]
    obtain rfl | hk' := List.mem_cons.1 hk
    · have hother (n : Nat) (hn : n ∈ rest) : n ≠ k := fun h => hfresh (h ▸ hn)
      rw [read_foldl_codecBlock_outside, codecBlock, read_writeBlock_inside _ _ _ _ _ hj]
      intro n hn
      have := hother n hn
      omega
    · have hne : k ≠ i := fun h => hfresh (h ▸ hk')
      rw [ih _ hrest hnodup' hk', codecBlock, readBlock_writeBlock _ _ _ _ _ ha hi hne]

end

end Sys2Proof.Machine

namespace Sys2Proof.Proofs
open Sys2Proof.Machine

/-- Settles O15 (R61 to R66, R70). -/
theorem encBufEncryptsTheBuffer : Obligations.EncBufEncryptsTheBuffer := fun s hs =>
  encBuf_appliesToBuffer.completes s ((validateInstr_encBuf s).2 hs)

/-- Settles O16 (R61 to R65, R67, R70): the output is as long as the input. -/
theorem decBufDecryptsTheBuffer : Obligations.DecBufDecryptsTheBuffer := by
  intro s hs
  obtain ⟨t, ht, hread, hout, hlen, hends, hframe⟩ :=
    decBuf_appliesToBuffer.completes s ((validateInstr_decBuf s).2 hs)
  exact ⟨t, ht, hread, hout, BitVec.eq_of_toNat_eq hlen, hends, hframe⟩

/-- Settles O17 (R62). -/
theorem emptyBufferWritesNothing : Obligations.EmptyBufferWritesNothing := fun s hlen =>
  ⟨fun hs => encBuf_appliesToBuffer.completes_empty s ((validateInstr_encBuf s).2 hs) hlen,
    fun hs => decBuf_appliesToBuffer.completes_empty s ((validateInstr_decBuf s).2 hs) hlen⟩

/-- Settles O18 (R68): the second command gives back the zero-extended plaintext. -/
theorem bufferRoundTripPadsWithZeros : Obligations.BufferRoundTripPadsWithZeros := by
  intro s t place hs ht hs'
  obtain ⟨u, hu, hout, hread⟩ := encBuf_appliesToBuffer.restores decBuf_appliesToBuffer
    decryptBlock_encryptBlock s t place ((validateInstr_encBuf s).2 hs) ht
    ((validateInstr_decBuf _).2 hs')
  have hfits : s.len.toNat ≤ outLength .encBuf s.len.toNat := by
    simp only [outLength, commandIsDecrypt, Bool.false_eq_true, if_false]
    omega
  refine ⟨u, hu, hout, fun k hk => ?_, fun k hlo hhi => ?_⟩
  · rw [hread k (by omega), paddedInput_of_lt s k hk]
  · rw [hread k hhi, paddedInput_of_le s k hlo]

/-- Settles O19 (R65): in either order a byte of block `k` is that of the block function on input
block `k`, and a byte outside the blocks is as before. -/
theorem blockOrderIsIrrelevant : Obligations.BlockOrderIsIrrelevant := by
  intro f e n order m hout _ ha hperm a
  have hmem (k : Nat) : k ∈ order ↔ k < n := hperm.mem_iff.trans List.mem_range
  by_cases hin : e.dst ≤ a ∧ a < e.dst + 8 * n
  · obtain ⟨d, rfl⟩ := Nat.exists_eq_add_of_le hin.1
    have hn : d / 8 < n := by omega
    have hj : d % 8 < 8 := Nat.mod_lt d (by decide)
    have hfit (i : Nat) (hi : i ∈ order) : 8 * i + 8 ≤ e.outLen := by
      have := (hmem i).1 hi
      omega
    rw [← Nat.div_add_mod d 8, ← Nat.add_assoc,
      read_foldl_codecBlock_inside f e order m _ _ ha hfit (hperm.nodup_iff.2 List.nodup_range)
        ((hmem _).2 hn) hj,
      read_codecLoop_inside f e n 0 m _ _ ha (by omega) (by omega) hj]
  · rw [read_codecLoop_outside f e n 0 m a (by omega)]
    apply read_foldl_codecBlock_outside
    intro i hi
    have := (hmem i).1 hi
    omega

/-- Settles O21 (R63). -/
theorem bytesBeyondLenHaveNoEffect : Obligations.BytesBeyondLenHaveNoEffect :=
  fun s t t' m hs => encBuf_appliesToBuffer.output_congr s t t' m ((validateInstr_encBuf s).2 hs)

/-- Settles O22 (R59, R66). -/
theorem oneBlockBufferIsTheBlockCommand : Obligations.OneBlockBufferIsTheBlockCommand := by
  intro s hs hlen
  have ⟨hk, _⟩ := hs
  obtain ⟨t, u, ht, hu, hblock⟩ := encBuf_appliesToBuffer.one_block encBlock_appliesToBlock s
    ((validateInstr_encBuf s).2 hs) hk (by rw [hlen]; rfl) _ rfl
  exact ⟨t, u, ht, hu, congrArg Block.v0 hblock, congrArg Block.v1 hblock⟩

end Sys2Proof.Proofs

/-! The register window by slot (10_state.md R12, 20_memory.md R35 to R38): which offsets are slots,
and what a write and a read of a slot do while idle and while busy. -/
namespace Sys2Proof.Machine

/-! ### Offsets -/

theorem Slot.offset_mod_four (slot : Slot) : slot.offset % 4 = 0 := by
  cases slot <;> rfl

/-- There is a slot at every multiple of 4 in the window (R12). -/
theorem Slot.exists_offset_eq (offset : Nat) (hlt : offset < 64) (hmod : offset % 4 = 0) :
    ∃ slot : Slot, slot.offset = offset := by
  have hall : ∀ n < 16, (Slot.ofOffset (4 * n)).isSome = true := by decide
  obtain ⟨slot, hslot⟩ := Option.isSome_iff_exists.1 (hall (offset / 4) (by omega))
  exact ⟨slot, by rw [(Slot.ofOffset_iff _ slot).1 hslot]; omega⟩

theorem Slot.offset_injective : Function.Injective Slot.offset := by
  intro a b h
  have hb := (Slot.ofOffset_iff a.offset b).2 h.symm
  rw [(Slot.ofOffset_iff a.offset a).2 rfl] at hb
  exact Option.some.inj hb

/-- An access of another width, or at another offset of the window, reaches no slot (R35). -/
theorem State.reachedSlot_unsupported (s : State) (width offset : Nat) (hlt : offset < 64)
    (h : width ≠ 32 ∨ offset % 4 ≠ 0) :
    s.reachedSlot width (s.regBase + offset) = .error (.unsupportedAccess width offset) := by
  have hin : ¬(s.regBase + offset < s.regBase ∨ s.regBase + 64 ≤ s.regBase + offset) := by omega
  rw [reachedSlot, if_neg hin, Nat.add_sub_cancel_left]
  split_ifs with hwidth
  · rfl
  · cases hslot : Slot.ofOffset offset with
    | none => rfl
    | some slot =>
      have hmod := slot.offset_mod_four
      rw [(Slot.ofOffset_iff offset slot).1 hslot] at hmod
      omega

theorem takeTurn_regWrite_unsupported (s : State) (width offset : Nat) (v : Word)
    (hlt : offset < 64) (h : width ≠ 32 ∨ offset % 4 ≠ 0) :
    takeTurn (.regWrite width (s.regBase + offset) v) s =
      .refused (.unsupportedAccess width offset) := by
  rw [takeTurn, hostRegWrite, s.reachedSlot_unsupported width offset hlt h]

theorem takeTurn_regRead_unsupported (s : State) (width offset : Nat) (hlt : offset < 64)
    (h : width ≠ 32 ∨ offset % 4 ≠ 0) :
    takeTurn (.regRead width (s.regBase + offset)) s =
      .refused (.unsupportedAccess width offset) := by
  rw [takeTurn, hostRegRead, s.reachedSlot_unsupported width offset hlt h]

/-! ### Writes -/

theorem State.writeLeaves_of_idle (s : State) (slot : Slot) (v : Word) (hs : s.busy = false) :
    s.writeLeaves slot.offset v (s.writeSlot slot v) := by
  have hw : s.hostWrite slot v = s.writeSlot slot v := by simp [hostWrite, hs]
  rw [← hw]
  exact takeTurn_regWrite_slot s slot v

theorem State.writeLeaves_of_busy (s : State) (slot : Slot) (v : Word) (hs : s.busy = true) :
    s.writeLeaves slot.offset v { s with status := statusWriteIgnored s.status } := by
  rw [← s.hostWrite_of_busy slot v hs]
  exact takeTurn_regWrite_slot s slot v

/-- The operand registers, which take the host's writes (R36). -/
def operandSlots : List Slot := [.keylen, .k0, .k1, .k2, .k3, .v0, .v1, .src, .dst, .len]

/-- The slots no write reaches (R36). -/
def readOnlySlots : List Slot := [.status, .reserved0C, .outlen, .reserved38, .reserved3C]

/-- The slots that hold no register: they read 0 (R37). -/
def emptySlots : List Slot := [.cmd, .reserved0C, .reserved38, .reserved3C]

theorem State.slotValue_writeSlot (s : State) (slot : Slot) (v : Word) (h : slot ∈ operandSlots) :
    (s.writeSlot slot v).slotValue slot = v := by
  cases slot with
  | cmd | status | reserved0C | outlen | reserved38 | reserved3C => exact absurd h (by decide)
  | _ => rfl

theorem State.writeSlot_readOnly (s : State) (slot : Slot) (v : Word) (h : slot ∈ readOnlySlots) :
    s.writeSlot slot v = s := by
  cases slot with
  | status | reserved0C | outlen | reserved38 | reserved3C => rfl
  | _ => exact absurd h (by decide)

/-! ### Reads -/

/-- A read of a free value touches the host's side and the count of draws (R38). -/
theorem State.hostRead_working (slot : Slot) (s : State) (hs : s.busy = true)
    (hw : slot.isWorking = true) :
    s.hostRead slot = { s with
      responses := .word (Config.freeWord s.draws) :: s.responses, draws := s.draws + 1 } := by
  rw [hostRead, hs, hw]; rfl

/-- Any other read returns the slot's value (R37). -/
theorem State.hostRead_fixed (slot : Slot) (s : State)
    (h : s.busy = false ∨ slot.isWorking = false) :
    s.hostRead slot = { s with
      responses := .word (s.slotValue slot) :: s.responses, duty := (s.hostRead slot).duty } := by
  have hfixed : ¬(s.busy && slot.isWorking) = true := by
    rw [Bool.and_eq_true]
    rintro ⟨hbusy, hw⟩
    obtain h | h := h
    · exact Bool.noConfusion (h.symm.trans hbusy)
    · exact Bool.noConfusion (h.symm.trans hw)
  rw [hostRead_duty, hostRead, if_neg hfixed]

/-- A register read changes the host's side only (R37). -/
theorem State.hostRead_frame (slot : Slot) (s : State) :
    (s.hostRead slot = { s with
      responses := (s.hostRead slot).responses, draws := (s.hostRead slot).draws
      duty := (s.hostRead slot).duty }) ∧
    ∃ v, (s.hostRead slot).responses = .word v :: s.responses := by
  unfold hostRead
  split <;> exact ⟨rfl, _, rfl⟩

theorem State.observesCompletion_iff (slot : Slot) (s : State) :
    s.observesCompletion slot = true ↔ slot = .status ∧ s.busy = false ∧ s.done = true := by
  simp [observesCompletion, and_assoc]

/-- A read that does not observe completion answers the slot's value and changes nothing else. -/
theorem State.readAnswers_of_fixed (s : State) (slot : Slot)
    (hfixed : s.busy = false ∨ slot.isWorking = false)
    (hcode : slot = .status → (statusErr s.status).toNat ≤ 5)
    (hobs : s.observesCompletion slot = false) : s.readAnswers slot.offset (s.slotValue slot) := by
  have hduty : (s.hostRead slot).duty = s.duty := by rw [hostRead_duty, hobs]; rfl
  rw [readAnswers, takeTurn_regRead_slot s slot hcode, s.hostRead_fixed slot hfixed, hduty]

/-- At every slot but STATUS a read observes nothing, so it answers the slot's value. -/
theorem State.readAnswers_of_ne_status (s : State) (slot : Slot) (hslot : slot ≠ .status)
    (hfixed : s.busy = false ∨ slot.isWorking = false) :
    s.readAnswers slot.offset (s.slotValue slot) := by
  refine s.readAnswers_of_fixed slot hfixed (fun h => absurd h hslot) ?_
  rw [Bool.eq_false_iff, Ne, observesCompletion_iff]
  exact fun h => hslot h.1

/-- A STATUS read while busy observes no completion. -/
theorem State.readAnswers_status_of_busy (s : State) (hs : s.busy = true)
    (hcode : (statusErr s.status).toNat ≤ 5) : s.readAnswers 0x04 s.status :=
  s.readAnswers_of_fixed .status (.inr rfl) (fun _ => hcode)
    (s.observesCompletion_of_busy .status hs)

/-- A STATUS read answers STATUS; it may end the duty (R37, R42). -/
theorem State.takeTurn_statusRead (s : State) (hcode : (statusErr s.status).toNat ≤ 5) :
    ∃ t, takeTurn (.regRead 32 (s.regBase + 0x04)) s = .next t ∧
      t = { s with responses := .word s.status :: s.responses, duty := t.duty } :=
  ⟨_, takeTurn_regRead_slot s .status fun _ => hcode, s.hostRead_fixed .status (.inr rfl)⟩

/-! ### A command before a key (10_state.md R15) -/

/-- InvalidKeyLength raised right after an acceptance: DONE 1, ERR 1 and every other bit 0 (R76). -/
theorem statusCompleted_invalidKeyLength_accepted :
    statusCompleted (endCode (some .invalidKeyLength)) statusAccepted = 0x00000012#32 := by decide

/-- An acceptance presents no key, so the accepted command still fails for want of one. -/
theorem exec_accept_of_keylen_ne (s : State) (i : Instr) (hk : s.keylen ≠ 4#32) :
    exec i (s.accept (encode i)) =
      .next ((s.accept (encode i)).endCommand (some .invalidKeyLength)) :=
  exec_error i _ _ (validateInstr_of_keylen_ne i _ hk)

/-! ### Data memory from outside (20_memory.md R42) -/

theorem State.writeRaces_iff (s : State) (x : Nat) :
    s.writeRaces x = true ↔ ∃ e ∈ s.duty, (e.src ≤ x ∧ x < e.src + e.len) ∨
      (e.dst ≤ x ∧ x < e.dst + e.outLen) := by
  simp [writeRaces, Extent.inInput, Extent.inOutput]

theorem State.readRaces_iff (s : State) (x : Nat) :
    s.readRaces x = true ↔ ∃ e ∈ s.duty, e.dst ≤ x ∧ x < e.dst + e.outLen := by
  simp [readRaces, Extent.inOutput]

theorem State.inDataMemory_eq_true (s : State) (a n : Nat) (hin : a + n ≤ s.memSize) :
    s.inDataMemory a n = true := decide_eq_true hin

theorem hostMemWrite_race (s : State) (a : Nat) (bs : List Byte) (x : Nat)
    (hin : a + bs.length ≤ s.memSize) (hlo : a ≤ x) (hhi : x < a + bs.length)
    (hrace : s.writeRaces x = true) : takeTurn (.memWrite a bs) s = .fault .hostRace := by
  have hany := (anyAddress_iff s.writeRaces a bs.length).2 ⟨x, hlo, hhi, hrace⟩
  simp [takeTurn, hostMemWrite, s.inDataMemory_eq_true a _ hin, hany]

theorem hostMemRead_race (s : State) (a n x : Nat) (hin : a + n ≤ s.memSize) (hlo : a ≤ x)
    (hhi : x < a + n) (hrace : s.readRaces x = true) :
    takeTurn (.memRead a n) s = .fault .hostRace := by
  have hany := (anyAddress_iff s.readRaces a n).2 ⟨x, hlo, hhi, hrace⟩
  simp [takeTurn, hostMemRead, s.inDataMemory_eq_true a n hin, hany]

theorem hostMemWrite_of_no_race (s : State) (a : Nat) (bs : List Byte)
    (hin : a + bs.length ≤ s.memSize)
    (hno : ∀ x, a ≤ x → x < a + bs.length → ¬s.writeRaces x = true) :
    takeTurn (.memWrite a bs) s = .next { s with mem := Memory.writeBytes s.mem a bs } := by
  have hany : ¬anyAddress s.writeRaces a bs.length = true := by
    rw [anyAddress_iff]
    exact fun ⟨x, hlo, hhi, hrace⟩ => hno x hlo hhi hrace
  simp [takeTurn, hostMemWrite, s.inDataMemory_eq_true a _ hin, hany]

theorem hostMemRead_of_no_race (s : State) (a n : Nat) (hin : a + n ≤ s.memSize)
    (hno : ∀ x, a ≤ x → x < a + n → ¬s.readRaces x = true) :
    takeTurn (.memRead a n) s =
      .next { s with responses := .bytes (Memory.readBytes s.mem a n) :: s.responses } := by
  have hany : ¬anyAddress s.readRaces a n = true := by
    rw [anyAddress_iff]
    exact fun ⟨x, hlo, hhi, hrace⟩ => hno x hlo hhi hrace
  simp [takeTurn, hostMemRead, s.inDataMemory_eq_true a n hin, hany]

theorem Memory.getElem?_readBytes (m : Memory) (a n k : Nat) (hk : k < n) :
    (Memory.readBytes m a n)[k]? = some (Memory.read m (a + k)) := by
  have hlen : k < (Memory.readBytes m a n).length := by rwa [Memory.length_readBytes]
  rw [List.getElem?_eq_getElem hlen, Memory.getElem_readBytes]

/-- The bytes just written are read back. -/
theorem Memory.readBytes_writeBytes (m : Memory) (a : Nat) (bs : List Byte) :
    Memory.readBytes (Memory.writeBytes m a bs) a bs.length = bs := by
  refine List.ext_getElem (Memory.length_readBytes _ _ _) fun k hk hk' => ?_
  rw [Memory.getElem_readBytes, Memory.read_writeBytes_inside m a bs k hk']

end Sys2Proof.Machine

namespace Sys2Proof.Proofs
open Sys2Proof.Machine

/-- Settles O24 (R15): the acceptance keeps KEYLEN, and validation fails at the key. -/
theorem everyCommandFailsBeforeAKey : Obligations.EveryCommandFailsBeforeAKey := by
  refine ⟨fun s i hs hk => ?_, fun i => ?_⟩
  · refine ⟨_, (s.accept (encode i)).endCommand (some .invalidKeyLength),
      takeTurn_cmdWrite_of_idle s (encode i) hs, ?_, ?_⟩
    · rw [engineTurn_of_decode_ok (s.accept (encode i)) i (s.busy_accept _) (decode_encode i),
        exec_accept_of_keylen_ne s i hk]
    · rw [← statusCompleted_invalidKeyLength_accepted]
      rfl
  · exact ⟨_, exec_accept_of_keylen_ne State.reset i (by decide),
      statusCompleted_invalidKeyLength_accepted, rfl, rfl, rfl, rfl⟩

/-- Settles O26 (R12, R36). -/
theorem operandRegistersReadBack : Obligations.OperandRegistersReadBack := by
  intro s v hs
  have hwrite (slot : Slot) := s.writeLeaves_of_idle slot v hs
  refine ⟨hwrite .keylen, hwrite .k0, hwrite .k1, hwrite .k2, hwrite .k3, hwrite .v0, hwrite .v1,
    hwrite .src, hwrite .dst, hwrite .len, ?_⟩
  refine (List.forall_mem_map (f := Slot.offset) (l := operandSlots)).2 fun slot hslot => ?_
  have hcmd : slot ≠ .cmd := by rintro rfl; exact absurd hslot (by decide)
  have hstatus : slot ≠ .status := by rintro rfl; exact absurd hslot (by decide)
  have hread := (s.writeSlot slot v).readAnswers_of_ne_status slot hstatus
    (.inl ((s.busy_writeSlot slot v hcmd).trans hs))
  rw [s.slotValue_writeSlot slot v hslot] at hread
  exact ⟨_, hwrite slot, hread⟩

/-- Settles O27 (R20, R36, R37). -/
theorem readOnlySlotsIgnoreWrites : Obligations.ReadOnlySlotsIgnoreWrites := by
  refine ⟨fun s v hs => ?_, fun s => ?_, fun s ⟨hres, _, _, hcode, _⟩ => ?_⟩
  · refine (List.forall_mem_map (f := Slot.offset) (l := readOnlySlots)).2 fun slot hslot => ?_
    have hwrite := s.writeLeaves_of_idle slot v hs
    rwa [s.writeSlot_readOnly slot v hslot] at hwrite
  · refine (List.forall_mem_map (f := Slot.offset) (l := emptySlots)).2 fun slot hslot => ?_
    cases slot with
    | cmd | reserved0C | reserved38 | reserved3C =>
      exact s.readAnswers_of_ne_status _ (by decide) (.inr rfl)
    | _ => exact absurd hslot (by decide)
  · obtain ⟨t, ht, hframe⟩ := s.takeTurn_statusRead hcode
    exact ⟨t, s.status, ht, congrArg State.responses hframe, hres⟩

/-- Settles O28 (R38). -/
theorem busyWindowIgnoresWrites : Obligations.BusyWindowIgnoresWrites := by
  intro s v hs
  have hread (slot : Slot) (hslot : slot ≠ .status) (hw : slot.isWorking = false) :=
    s.readAnswers_of_ne_status slot hslot (.inr hw)
  have hfree (slot : Slot) (hslot : slot ∈ [Slot.v0, .v1, .outlen]) :
      takeTurn (.regRead 32 (s.regBase + slot.offset)) s = .next { s with
        responses := .word (Config.freeWord s.draws) :: s.responses, draws := s.draws + 1 } := by
    have hw : slot ≠ .status ∧ slot.isWorking = true := by
      revert hslot
      cases slot <;> decide
    rw [takeTurn_regRead_slot s slot (fun h => absurd h hw.1), s.hostRead_working slot hs hw.2]
  refine ⟨fun offset hlt hmod => ?_,
    (List.forall_mem_map (f := Slot.offset) (l := [.v0, .v1, .outlen])).2 hfree,
    s.readAnswers_status_of_busy hs, ?_⟩
  · obtain ⟨slot, rfl⟩ := Slot.exists_offset_eq offset hlt hmod
    exact ⟨_, s.writeLeaves_of_busy slot v hs, statusWign_writeIgnored _,
      (statusBusy_writeIgnored _).trans hs, statusErr_writeIgnored _, rfl⟩
  · exact ⟨hread .cmd (by decide) rfl, hread .keylen (by decide) rfl,
      hread .reserved0C (by decide) rfl, hread .k0 (by decide) rfl, hread .k1 (by decide) rfl,
      hread .k2 (by decide) rfl, hread .k3 (by decide) rfl, hread .src (by decide) rfl,
      hread .dst (by decide) rfl, hread .len (by decide) rfl, hread .reserved38 (by decide) rfl,
      hread .reserved3C (by decide) rfl⟩

/-- Settles O48 (R12, R37). -/
theorem idleReadsReturnTheRegisters : Obligations.IdleReadsReturnTheRegisters := by
  intro s hs
  have hread (slot : Slot) (hslot : slot ≠ .status) :=
    s.readAnswers_of_ne_status slot hslot (.inl hs)
  exact ⟨hread .cmd (by decide), s.takeTurn_statusRead, hread .keylen (by decide),
    hread .reserved0C (by decide), hread .k0 (by decide), hread .k1 (by decide),
    hread .k2 (by decide), hread .k3 (by decide), hread .v0 (by decide), hread .v1 (by decide),
    hread .src (by decide), hread .dst (by decide), hread .len (by decide),
    hread .outlen (by decide), hread .reserved38 (by decide), hread .reserved3C (by decide)⟩

/-- Settles O29 (R37). -/
theorem readsChangeNoRegister : Obligations.ReadsChangeNoRegister := by
  intro s t width address h
  obtain ⟨slot, -, -, rfl⟩ := hostRegRead_next width address s t h
  exact s.hostRead_frame slot

/-- Settles O30 (R35). -/
theorem onlyAlignedWordAccessesAreAdmitted : Obligations.OnlyAlignedWordAccessesAreAdmitted := by
  intro s width offset v hlt
  refine ⟨fun h => ⟨takeTurn_regWrite_unsupported s width offset v hlt h,
    takeTurn_regRead_unsupported s width offset hlt h⟩, ?_⟩
  rintro rfl hmod
  obtain ⟨slot, rfl⟩ := Slot.exists_offset_eq offset hlt hmod
  refine ⟨slot, rfl, takeTurn_regWrite_slot s slot v, fun hcode => ?_⟩
  exact takeTurn_regRead_slot s slot fun hslot => hcode.resolve_left (by rw [hslot]; decide)

/-- Settles O47 (R41 item 5, R42): of the slots only STATUS observes completion, and its offset is
0x04. -/
theorem observedCompletionEndsTheDuty : Obligations.ObservedCompletionEndsTheDuty := by
  intro s t offset h
  obtain ⟨slot, -, haddress, rfl⟩ := hostRegRead_next _ _ s t h
  obtain rfl : offset = slot.offset := Nat.add_left_cancel haddress
  have hstatus : slot.offset = 0x04 ↔ slot = .status :=
    Slot.offset_injective.eq_iff (b := .status)
  rw [State.hostRead_duty]
  refine ⟨fun hslot hs hdone => if_pos ?_, fun h => if_neg ?_⟩
  · exact (s.observesCompletion_iff slot).2 ⟨hstatus.1 hslot, hs, hdone⟩
  · rw [State.observesCompletion_iff]
    rintro ⟨hslot, hs, hdone⟩
    simp [hstatus.2 hslot, hs, hdone] at h

/-- Settles O45 (R42, R90): the running command's ranges are in the duty. -/
theorem hostRaceIsAFault : Obligations.HostRaceIsAFault := by
  intro s i x hs hd hbuf hcovers
  have hduty := hcovers hs i hd hbuf
  have hout (hrun : s.runningOutput x) :
      s.dst.toNat ≤ x ∧ x < s.dst.toNat + outLength i s.len.toNat := by
    obtain ⟨-, i', hd', -, hin⟩ := hrun
    obtain rfl : i' = i := Except.ok.inj (hd'.symm.trans hd)
    exact hin
  refine ⟨fun a bs hin hlo hhi hx => ?_, fun a n hin hlo hhi hx => ?_⟩
  · exact hostMemWrite_race s a bs x hin hlo hhi
      ((s.writeRaces_iff x).2 ⟨_, hduty, hx.imp_right hout⟩)
  · exact hostMemRead_race s a n x hin hlo hhi ((s.readRaces_iff x).2 ⟨_, hduty, hout hx⟩)

/-- Settles O46 (R28, R42, R94): a write that meets no range races with none, nor does a read of the
same bytes. -/
theorem hostReadsBackWhatItWrote : Obligations.HostReadsBackWhatItWrote := by
  intro s a bs hin hno
  have hwrite := hostMemWrite_of_no_race s a bs hin fun x hlo hhi hrace => by
    obtain ⟨e, he, hx⟩ := (s.writeRaces_iff x).1 hrace
    obtain ⟨hnotIn, hnotOut⟩ := hno e he x hlo hhi
    exact hx.elim hnotIn hnotOut
  refine ⟨_, _, hwrite, rfl, fun x hx => Memory.read_writeBytes_outside s.mem a bs x hx,
    hostMemRead_of_no_race _ a bs.length hin fun x hlo hhi hrace => ?_, ?_⟩
  · obtain ⟨e, he, hx⟩ := (State.readRaces_iff _ x).1 hrace
    exact (hno e he x hlo hhi).2 hx
  · rw [Memory.readBytes_writeBytes]

/-- Settles O50 (R42, R94). -/
theorem hostMayReadOutsideTheOutputRanges : Obligations.HostMayReadOutsideTheOutputRanges := by
  intro s a n hin hno
  refine ⟨Memory.readBytes s.mem a n, Memory.length_readBytes _ _ _,
    fun k hk => Memory.getElem?_readBytes s.mem a n k hk, ?_⟩
  refine hostMemRead_of_no_race s a n hin fun x hlo hhi hrace => ?_
  obtain ⟨e, he, hx⟩ := (s.readRaces_iff x).1 hrace
  exact hno e he x hlo hhi hx

end Sys2Proof.Proofs
